-- ==== Sys2Proof/Word.lean ====
section
/-! DEFINITION. Limbs, values, words and register numbers, and the number a value denotes (R5, R8, R9).

The block handles 64-bit limbs only: it has no bytes (R28), so there is no byte type here. -/

namespace Sys2Proof

/-- One limb: a 64-bit unsigned word (R5). -/
abbrev Limb := BitVec 64

/-- An N-limb value as the ordered sequence of its limbs, limb 0 (the least significant) first (R5, R28).
That the length is exactly N is the invariant `Machine.State.WF`, kept by every step. -/
abbrev Value := List Limb

/-- One command: a 32-bit word (R36, R39). -/
abbrev CommandWord := BitVec 32

/-- The 64-bit STATUS word (R19). -/
abbrev StatusWord := BitVec 64

/-- The number r of an operand register V<r>, 0 to 7 (R15, R37). -/
abbrev Reg := Fin 8

/-- The natural number a value denotes: the sum of limb[j]·2^(64·j) (R5, R9). -/
def val : Value → Nat
  | [] => 0
  | x :: xs => x.toNat + 2 ^ 64 * val xs

end Sys2Proof
end

