-- ==== Sys2Proof/Machine/Limbs.lean ====
section
/-! DEFINITION. The limb primitives (R47 to R52) and the zero test of a limb (R58). They hold no state. -/

namespace Sys2Proof.Machine

/-- A carry or borrow bit as a 64-bit word. -/
def bitLimb (c : Bool) : Limb := if c then 1 else 0

/-- add_with_carry, formed as the source fixes it: two sequential overflow-checked additions, a + b and then + carry_in,
whose carries are ORed (R48; R47 gives its value). -/
def addWithCarry (cin : Bool) (a b : Limb) : Limb × Bool :=
  let t := a + b
  let c1 := decide (2 ^ 64 ≤ a.toNat + b.toNat)
  let c2 := decide (2 ^ 64 ≤ t.toNat + cin.toNat)
  (t + bitLimb cin, c1 || c2)

/-- sub_with_borrow, the mirror: two sequential subtractions, a - b and then - borrow_in, whose borrows are ORed (R49). -/
def subWithBorrow (bin : Bool) (a b : Limb) : Limb × Bool :=
  let t := a - b
  let w1 := decide (a.toNat < b.toNat)
  let w2 := decide (t.toNat < bin.toNat)
  (t - bitLimb bin, w1 || w2)

/-- A product of two limbs, split into its halves (R50). -/
structure WideProduct where
  low : Limb
  high : Limb
deriving DecidableEq, Repr

/-- widening_multiply: the exact 128-bit product (R50). -/
def wideningMultiply (a b : Limb) : WideProduct where
  low := BitVec.ofNat 64 (a.toNat * b.toNat)
  high := BitVec.ofNat 64 (a.toNat * b.toNat / 2 ^ 64)

/-- What the source's multiply_accumulate computes, with the bit it loses (R51). -/
structure MacResult where
  low : Limb
  high : Limb
  lost : Bool
deriving DecidableEq, Repr

/-- multiply_accumulate with the 64-bit acc_high the source describes; `lost` is 1 when that word overflows (R51).
No multiplier rule uses it alone (90_conflicts.md C1): the multiplier uses `multiplyAccumulate3`. -/
def multiplyAccumulate (accHigh accLow a b : Limb) : MacResult :=
  let p := wideningMultiply a b
  let low := addWithCarry false accLow p.low
  { low := low.1
    high := accHigh + p.high + bitLimb low.2
    lost := decide (2 ^ 64 ≤ accHigh.toNat + p.high.toNat + low.2.toNat) }

/-- The column accumulator: three 64-bit words (R52, R69). It lives inside one command (R21). -/
structure Accumulator where
  top : Limb
  high : Limb
  low : Limb
deriving DecidableEq, Repr

/-- The number {top, high, low} an accumulator holds (R8, R52). -/
def Accumulator.toNat (acc : Accumulator) : Nat :=
  acc.low.toNat + 2 ^ 64 * acc.high.toNat + 2 ^ 128 * acc.top.toNat

/-- The accumulator {0, 0, 0}. -/
def Accumulator.zero : Accumulator := { top := 0, high := 0, low := 0 }

/-- {t, h, l} becomes {0, t, h}: what a finished column carries into the next (R69). -/
def Accumulator.carryOut (acc : Accumulator) : Accumulator := { top := 0, high := acc.top, low := acc.high }

/-- multiply_accumulate3: the widened multiply-accumulate that keeps the carry out of acc_high (R52). -/
def multiplyAccumulate3 (acc : Accumulator) (a b : Limb) : Accumulator :=
  let p := wideningMultiply a b
  let low := addWithCarry false acc.low p.low
  let high := addWithCarry low.2 acc.high p.high
  { top := acc.top + bitLimb high.2, high := high.1, low := low.1 }

/-- The block's zero test of a limb, by value (R58). -/
def isZero (d : Limb) : Bool := d == 0

/-- The source's formula ((d | -d) >> 63) ^ 1 with a logical right shift (R58). -/
def zeroFormulaLogical (d : Limb) : Limb := ((d ||| -d) >>> 63) ^^^ 1

/-- The source's formula with the arithmetic right shift it asks for (R58, 90_conflicts.md C3). -/
def zeroFormulaArithmetic (d : Limb) : Limb := ((d ||| -d).sshiftRight 63) ^^^ 1

end Sys2Proof.Machine
end

