-- ==== Sys2Proof/Machine/Datapath.lean ====
section
/-! DEFINITION. The N-limb units: carry and borrow chains, limb-wise logic, column multiplier, shifter (R53, R55, R65 to R69,
R76 to R78). Pure functions of their operands (R11). -/

namespace Sys2Proof.Machine

/-- limbat(a, k): limb k of a, and 0 for an index outside the limbs (R76). -/
def limbAt (a : Value) : Int → Limb
  | .ofNat k => a.getD k 0
  | .negSucc _ => 0

/-- The carry chain from a carry into the lowest limb, over the limbs in increasing index order (R53). -/
def rippleAddFrom (c : Bool) : Value → Value → Value × Bool
  | [], _ => ([], c)
  | _ :: _, [] => ([], c)
  | x :: xs, y :: ys =>
    let limb := addWithCarry c x y
    let rest := rippleAddFrom limb.2 xs ys
    (limb.1 :: rest.1, rest.2)

/-- ripple_add: the carry into limb 0 is 0 (R53, 90_conflicts.md C6). -/
def rippleAdd (a b : Value) : Value × Bool := rippleAddFrom false a b

/-- The borrow chain from a borrow into the lowest limb, over the limbs in increasing index order (R55). -/
def rippleSubFrom (w : Bool) : Value → Value → Value × Bool
  | [], _ => ([], w)
  | _ :: _, [] => ([], w)
  | x :: xs, y :: ys =>
    let limb := subWithBorrow w x y
    let rest := rippleSubFrom limb.2 xs ys
    (limb.1 :: rest.1, rest.2)

/-- ripple_sub: the borrow into limb 0 is 0 (R55). -/
def rippleSub (a b : Value) : Value × Bool := rippleSubFrom false a b

/-- Limb-wise AND (R65). -/
def limbwiseAnd (a b : Value) : Value := List.zipWith (fun x y => x &&& y) a b

/-- Limb-wise OR (R66). -/
def limbwiseOr (a b : Value) : Value := List.zipWith (fun x y => x ||| y) a b

/-- Limb-wise XOR (R67). -/
def limbwiseXor (a b : Value) : Value := List.zipWith (fun x y => x ^^^ y) a b

/-- Limb-wise complement (R68). -/
def limbwiseNot (a : Value) : Value := a.map (fun x => ~~~x)

/-- The word d that CMPEQ tests: the OR over all limbs of a.limb[i] XOR b.limb[i] (R59). -/
def differenceWord (a b : Value) : Limb := (limbwiseXor a b).foldl (fun d x => d ||| x) 0

/-- The indices i of column k, from max(0, k-N+1) to min(k, N-1) (R69). -/
def columnIndices (n k : Nat) : List Nat :=
  (List.range (min k (n - 1) + 1 - (k + 1 - n))).map (fun i => (k + 1 - n) + i)

/-- Add the limb products of column k to what was carried into it (R69). -/
def addColumn (n : Nat) (a b : Value) (k : Nat) (carry : Accumulator) : Accumulator :=
  (columnIndices n k).foldl (fun acc (i : Nat) => multiplyAccumulate3 acc (limbAt a i) (limbAt b (k - i))) carry

/-- The accumulators T_k, T_{k+1}, ... of `cols` columns from column k, given the carry into column k (R69, R70). -/
def columnTotals (n : Nat) (a b : Value) : (cols k : Nat) → Accumulator → List Accumulator
  | 0, _, _ => []
  | cols + 1, k, carry =>
    let total := addColumn n a b k carry
    total :: columnTotals n a b cols (k + 1) total.carryOut

/-- mul_columns(a, b, K): output limb k is the low word of column k's total (R69). -/
def mulColumns (n : Nat) (a b : Value) (cols : Nat) : Value :=
  (columnTotals n a b cols 0 Accumulator.zero).map (fun total => total.low)

/-- The N low limbs of a product, P[W-1:0] (R72, R73). -/
def lowHalf (n : Nat) (p : Value) : Value := p.take n

/-- The limbs from N up of a product, P[2W-1:W] (R72, R73). -/
def highHalf (n : Nat) (p : Value) : Value := p.drop n

/-- limb_jump J = sm >> 6 (R76). -/
def limbJump (sm : Limb) : Nat := (sm >>> 6).toNat

/-- bit_off B = sm & 63 (R76). -/
def bitOff (sm : Limb) : Nat := (sm &&& 63).toNat

/-- Output limb i of the right shift (R77). The second term is 0 when B = 0: a word is never shifted by 64
(93_implementation_defined.md U1). -/
def shrLimb (a : Value) (sm : Limb) (i : Nat) : Limb :=
  let lowpart := limbAt a (i + limbJump sm) >>> bitOff sm
  let highpart := if bitOff sm = 0 then 0 else limbAt a (i + limbJump sm + 1) <<< (64 - bitOff sm)
  lowpart ||| highpart

/-- Output limb i of the left shift (R78). -/
def shlLimb (a : Value) (sm : Limb) (i : Nat) : Limb :=
  let highpart := limbAt a (i - limbJump sm) <<< bitOff sm
  let lowpart := if bitOff sm = 0 then 0 else limbAt a (i - limbJump sm - 1) >>> (64 - bitOff sm)
  highpart ||| lowpart

/-- The logical right shift of an N-limb value by a masked amount (R77). -/
def shiftRight (n : Nat) (a : Value) (sm : Limb) : Value := (List.range n).map (shrLimb a sm)

/-- The logical left shift of an N-limb value by a masked amount (R78). -/
def shiftLeft (n : Nat) (a : Value) (sm : Limb) : Value := (List.range n).map (shlLimb a sm)

end Sys2Proof.Machine
end

