-- ==== Sys2Proof/Machine/Flags.lean ====
section
/-! DEFINITION. Every one-bit result that is written to FLAG (R17, R53, R55, R59 to R64, R71).
The five comparisons are the total order of R64 (lemmas in Laws/Chains.lean, statement ComparisonsAreATotalOrder). -/

namespace Sys2Proof.Machine

/-- The final carry of ADD (R53, R54). -/
def carryFlag (a b : Value) : Bool := (rippleAdd a b).2

/-- The final borrow of SUB (R55, R56). -/
def borrowFlag (a b : Value) : Bool := (rippleSub a b).2

/-- EQ(a, b): the zero test of the difference word (R59, R64). -/
def eqFlag (a b : Value) : Bool := isZero (differenceWord a b)

/-- LT(a, b): the final borrow of the ripple subtraction, whose difference is discarded (R60, R64). -/
def ltFlag (a b : Value) : Bool := (rippleSub a b).2

/-- LTE(a, b) = LT(a, b) | EQ(a, b) (R61), which is 1 - LT(b, a) (R64). -/
def lteFlag (a b : Value) : Bool := ltFlag a b || eqFlag a b

/-- GT(a, b) = LT(b, a) (R62, R64). -/
def gtFlag (a b : Value) : Bool := ltFlag b a

/-- GTE(a, b) = LT(b, a) | EQ(a, b) (R63), which is 1 - LT(a, b) (R64). -/
def gteFlag (a b : Value) : Bool := ltFlag b a || eqFlag a b

/-- The overflow bit of MUL: P[2W-1:W] is not zero (R71, R72, 90_conflicts.md C2). -/
def overflowFlag (n : Nat) (p : Value) : Bool := (highHalf n p).any (fun x => x != 0)

end Sys2Proof.Machine
end

