-- ==== Sys2Proof/Syntax.lean ====
section
/-! DEFINITION. The fifteen commands of the opcode map (R40), one constructor each.

A constructor carries the fields its command uses and no other (R40): `rd` the destination, `rs1` and `rs2` the sources,
`rd2` the second destination of MULF (the high half). No command has an immediate (R38). -/

namespace Sys2Proof

/-- One command of the block, in the order of the opcode map (R40). -/
inductive Instr where
  /-- ADD Vd, Vs1, Vs2 (R54). -/
  | add (rd rs1 rs2 : Reg)
  /-- SUB Vd, Vs1, Vs2 (R56). -/
  | sub (rd rs1 rs2 : Reg)
  /-- CMPEQ Vs1, Vs2 (R59). -/
  | cmpeq (rs1 rs2 : Reg)
  /-- CMPLT Vs1, Vs2 (R60). -/
  | cmplt (rs1 rs2 : Reg)
  /-- CMPLTE Vs1, Vs2 (R61). -/
  | cmplte (rs1 rs2 : Reg)
  /-- CMPGT Vs1, Vs2 (R62). -/
  | cmpgt (rs1 rs2 : Reg)
  /-- CMPGTE Vs1, Vs2 (R63). -/
  | cmpgte (rs1 rs2 : Reg)
  /-- AND Vd, Vs1, Vs2 (R65). -/
  | and (rd rs1 rs2 : Reg)
  /-- OR Vd, Vs1, Vs2 (R66). -/
  | or (rd rs1 rs2 : Reg)
  /-- XOR Vd, Vs1, Vs2 (R67). -/
  | xor (rd rs1 rs2 : Reg)
  /-- NOT Vd, Vs (R68). -/
  | not (rd rs1 : Reg)
  /-- MUL Vd, Vs1, Vs2 (R72). -/
  | mul (rd rs1 rs2 : Reg)
  /-- MULF Vlo, Vhi, Vs1, Vs2: `rd` is Vlo, `rd2` is Vhi (R73). -/
  | mulf (rd rd2 rs1 rs2 : Reg)
  /-- SHL Vd, Vs, Vamt (R78). -/
  | shl (rd rs1 rs2 : Reg)
  /-- SHR Vd, Vs, Vamt (R77). -/
  | shr (rd rs1 rs2 : Reg)
deriving DecidableEq, Repr

end Sys2Proof
end

