-- ==== Sys2Proof/WellFormed.lean ====
section
/-! DEFINITION. Which commands some legal word spells (R42, R45). -/

namespace Sys2Proof

/-- A command is well formed when some legal word spells it. The fields a command does not use are not in the syntax
and every register number is in range, so the one check left is that MULF's two destinations differ (R42, R45). -/
def Instr.wellFormed : Instr → Bool
  | .add _ _ _ => true
  | .sub _ _ _ => true
  | .cmpeq _ _ => true
  | .cmplt _ _ => true
  | .cmplte _ _ => true
  | .cmpgt _ _ => true
  | .cmpgte _ _ => true
  | .and _ _ _ => true
  | .or _ _ _ => true
  | .xor _ _ _ => true
  | .not _ _ => true
  | .mul _ _ _ => true
  | .mulf rd rd2 _ _ => rd != rd2
  | .shl _ _ _ => true
  | .shr _ _ _ => true

end Sys2Proof
end

