-- ==== Sys2Proof/Decode.lean ====
section
/-! DEFINITION. The command word: its fields, which words are legal, the decoder and the encoder (R36, R37, R40 to R43). -/

namespace Sys2Proof

/-- OPC = cmd[4:0] (R37). -/
def opcField (cmd : CommandWord) : BitVec 5 := cmd.extractLsb' 0 5

/-- RD = cmd[7:5] (R37). -/
def rdField (cmd : CommandWord) : Reg := (cmd.extractLsb' 5 3).toFin

/-- RS1 = cmd[10:8] (R37). -/
def rs1Field (cmd : CommandWord) : Reg := (cmd.extractLsb' 8 3).toFin

/-- RS2 = cmd[13:11] (R37). -/
def rs2Field (cmd : CommandWord) : Reg := (cmd.extractLsb' 11 3).toFin

/-- RD2 = cmd[16:14] (R37). -/
def rd2Field (cmd : CommandWord) : Reg := (cmd.extractLsb' 14 3).toFin

/-- RSV = cmd[31:17] (R37). -/
def rsvField (cmd : CommandWord) : BitVec 15 := cmd.extractLsb' 17 15

/-- Legal(cmd), the six conditions of R42 in their order. -/
def legal (cmd : CommandWord) : Bool :=
  let opc := (opcField cmd).toNat
  rsvField cmd == 0
    && decide (0x01 ≤ opc ∧ opc ≤ 0x0F)
    && (opc == 0x0D || rd2Field cmd == 0)
    && (!decide (0x03 ≤ opc ∧ opc ≤ 0x07) || rdField cmd == 0)
    && (opc != 0x0B || rs2Field cmd == 0)
    && (opc != 0x0D || rdField cmd != rd2Field cmd)

/-- Why a word is no command (the classes of R43). Which one is named when several hold is the model's choice (log 9);
the block records none of them (R82). -/
inductive IllegalReason where
  /-- RSV is not 0 (R43). -/
  | reservedBits
  /-- OPC is 0x00 or 0x10 to 0x1F (R43). -/
  | reservedOpcode
  /-- A field that R40 marks 0 is not 0 (R43). -/
  | unusedField
  /-- MULF with RD = RD2 (R42). -/
  | sameDestinations
deriving DecidableEq, Repr

/-- A three-register word: RD2 must be 0 (R40, R41). -/
def decodeThreeRegister (mk : Reg → Reg → Reg → Instr) (cmd : CommandWord) : Except IllegalReason Instr :=
  if rd2Field cmd = 0 then .ok (mk (rdField cmd) (rs1Field cmd) (rs2Field cmd)) else .error .unusedField

/-- A compare word: RD and RD2 must be 0 (R40, R41). -/
def decodeCompare (mk : Reg → Reg → Instr) (cmd : CommandWord) : Except IllegalReason Instr :=
  if rd2Field cmd = 0 ∧ rdField cmd = 0 then .ok (mk (rs1Field cmd) (rs2Field cmd)) else .error .unusedField

/-- A one-source word: RS2 and RD2 must be 0 (R40, R41). -/
def decodeOneSource (mk : Reg → Reg → Instr) (cmd : CommandWord) : Except IllegalReason Instr :=
  if rd2Field cmd = 0 ∧ rs2Field cmd = 0 then .ok (mk (rdField cmd) (rs1Field cmd)) else .error .unusedField

/-- A two-destination word: RD and RD2 must differ (R41, R42). -/
def decodeTwoDestination (mk : Reg → Reg → Reg → Reg → Instr) (cmd : CommandWord) : Except IllegalReason Instr :=
  if rdField cmd = rd2Field cmd then .error .sameDestinations
  else .ok (mk (rdField cmd) (rd2Field cmd) (rs1Field cmd) (rs2Field cmd))

/-- The opcode map (R40): the decoder, total on every word. -/
def decode (cmd : CommandWord) : Except IllegalReason Instr :=
  if rsvField cmd ≠ 0 then .error .reservedBits
  else
    match (opcField cmd).toNat with
    | 0x01 => decodeThreeRegister .add cmd
    | 0x02 => decodeThreeRegister .sub cmd
    | 0x03 => decodeCompare .cmpeq cmd
    | 0x04 => decodeCompare .cmplt cmd
    | 0x05 => decodeCompare .cmplte cmd
    | 0x06 => decodeCompare .cmpgt cmd
    | 0x07 => decodeCompare .cmpgte cmd
    | 0x08 => decodeThreeRegister .and cmd
    | 0x09 => decodeThreeRegister .or cmd
    | 0x0A => decodeThreeRegister .xor cmd
    | 0x0B => decodeOneSource .not cmd
    | 0x0C => decodeThreeRegister .mul cmd
    | 0x0D => decodeTwoDestination .mulf cmd
    | 0x0E => decodeThreeRegister .shl cmd
    | 0x0F => decodeThreeRegister .shr cmd
    | _ => .error .reservedOpcode

/-- cmd = OPC + RD·2^5 + RS1·2^8 + RS2·2^11 + RD2·2^14 with RSV = 0 (R37). -/
def assembleFields (opc : Nat) (rd rs1 rs2 rd2 : Reg) : CommandWord :=
  BitVec.ofNat 32 (opc + rd.val * 2 ^ 5 + rs1.val * 2 ^ 8 + rs2.val * 2 ^ 11 + rd2.val * 2 ^ 14)

/-- The word of a command: its opcode, its fields, and 0 in every field it does not use (R37, R40). -/
def encode : Instr → CommandWord
  | .add rd rs1 rs2 => assembleFields 0x01 rd rs1 rs2 0
  | .sub rd rs1 rs2 => assembleFields 0x02 rd rs1 rs2 0
  | .cmpeq rs1 rs2 => assembleFields 0x03 0 rs1 rs2 0
  | .cmplt rs1 rs2 => assembleFields 0x04 0 rs1 rs2 0
  | .cmplte rs1 rs2 => assembleFields 0x05 0 rs1 rs2 0
  | .cmpgt rs1 rs2 => assembleFields 0x06 0 rs1 rs2 0
  | .cmpgte rs1 rs2 => assembleFields 0x07 0 rs1 rs2 0
  | .and rd rs1 rs2 => assembleFields 0x08 rd rs1 rs2 0
  | .or rd rs1 rs2 => assembleFields 0x09 rd rs1 rs2 0
  | .xor rd rs1 rs2 => assembleFields 0x0A rd rs1 rs2 0
  | .not rd rs1 => assembleFields 0x0B rd rs1 0 0
  | .mul rd rs1 rs2 => assembleFields 0x0C rd rs1 rs2 0
  | .mulf rd rd2 rs1 rs2 => assembleFields 0x0D rd rs1 rs2 rd2
  | .shl rd rs1 rs2 => assembleFields 0x0E rd rs1 rs2 0
  | .shr rd rs1 rs2 => assembleFields 0x0F rd rs1 rs2 0

/-- The 32-bit word whose low `nbits` bits are those of `w` and whose other bits are 0. A command is handed over whole
by the host (R29): there is no byte layout between the table's numbering of bits and the block's (log 11). -/
def tableWord (nbits w : Nat) : CommandWord := BitVec.ofNat 32 (w % 2 ^ nbits)

/-- What the decoder reads from a table row's bits: none where the word is illegal. -/
def decodeTableWord (nbits w : Nat) : Option Instr := (decode (tableWord nbits w)).toOption

end Sys2Proof
end

