-- ==== Sys2Proof/Config.lean ====
section
/-! DEFINITION. What one instance of the block fixes (R1, R6, R7), and the values the spec leaves open. -/

namespace Sys2Proof

/-- The limb count N of one instance: 2, 4, 8 or 16 and nothing else (R6). -/
inductive LimbCount where
  | n2
  | n4
  | n8
  | n16
deriving DecidableEq, Repr

/-- N as a number (R6). -/
def LimbCount.count : LimbCount → Nat
  | .n2 => 2
  | .n4 => 4
  | .n8 => 8
  | .n16 => 16

/-- The operand width W = 64·N in bits (R6). -/
def LimbCount.width (n : LimbCount) : Nat := 64 * n.count

/-- The order of the eight bytes of a limb in a host's memory image, outside the block (R28).
DESIGN CHOICE (log 10): R28 leaves the parameter open and names none of its values; that it is one of these two is the
model's. Unsafe for a claim about the value's range, which no rule of the block depends on. -/
inductive ByteOrder where
  | littleEndian
  | bigEndian
deriving DecidableEq, Repr, Inhabited

namespace Config

/-- The identifier this spec gives the block (R1). -/
def identifier : String := "chestnut-core"

/-- The revision this spec gives the block (R1). -/
def revision : String := "doc-v7"

/-- NREG, the number of operand registers (R7, R15). -/
def registerCount : Nat := 8

/-- The limb count of the instance that `Machine.State.reset` is the reset state of.
DESIGN CHOICE (log 1): R6 makes N a parameter of an instance; State carries it, so every statement about all states
covers all four values, and only `Machine.State.reset` itself is at this one. Unsafe for a claim about that state alone. -/
def instanceLimbs : LimbCount := .n2

/-- FREE VALUE (log 2): limb `j` of what register `r` holds after reset number `epoch` of an instance of limb count `n`.
R23 and R95 say 'unspecified'; no body, so nothing can be proved of it. Safe. -/
opaque unspecifiedLimb (n : LimbCount) (epoch : Nat) (r : Reg) (j : Nat) : Limb

/-- The whole unspecified value of register `r` after reset number `epoch`: exactly N limbs (R5, R23). -/
def unspecifiedValue (n : LimbCount) (epoch : Nat) (r : Reg) : Value :=
  (List.range n.count).map (unspecifiedLimb n epoch r)

/-- LATENCY, an open parameter: it may depend on N and on the opcode, on no operand value and on no flag (R7, R98).
The model represents no time, so no definition reads it (log 10). -/
opaque latency (n : LimbCount) (opc : BitVec 5) : Nat

/-- HOST_BYTE_ORDER, an open parameter no rule of the block depends on (R7, R28); no definition reads it (log 10). -/
opaque hostByteOrder : ByteOrder

end Config

end Sys2Proof
end

