-- ==== Sys2Proof/Machine/State.lean ====
section
/-! DEFINITION. The state of one instance, the host port's operations and replies, the reasons a step can stop, and reset
(R14 to R23, R26, R81, R95). -/

namespace Sys2Proof.Machine

/-- The five operations through which the host reaches the block (R26). -/
inductive PortOp where
  /-- WriteReg(r, v): v is the N words of the value, limb 0 first. -/
  | writeReg (r : Reg) (v : Value)
  /-- ReadReg(r). -/
  | readReg (r : Reg)
  /-- ReadStatus(). -/
  | readStatus
  /-- Issue(cmd). -/
  | issue (cmd : CommandWord)
  /-- Reset(). -/
  | reset
deriving DecidableEq, Repr

/-- What a port operation returns to the host, for the two that return something (R26). -/
inductive PortReply where
  /-- ReadReg returned the limbs of V<r>, limb 0 first. -/
  | regValue (r : Reg) (v : Value)
  /-- ReadStatus returned the STATUS word. -/
  | status (w : StatusWord)
deriving DecidableEq, Repr

/-- The two exception causes of R81.
No fault is an outcome of `step`: an illegal command has the effect R82 gives it and the block goes on, and a read of an
unwritten register returns what the register holds, as the hardware does (R83). -/
inductive Fault where
  /-- Cause 1: the command word is illegal (R82). Named by `raised`; raised as an outcome by nobody, since `step`
  sets ILL and goes on (R82, R86). Safe: nothing stops on it. -/
  | illegalCommand (cmd : CommandWord)
  /-- Cause 2, of the model only: the register `r` is read and nothing has written it since reset (R83). Raised by
  `checkedExec` and `checkedStep`, the spec's checked reading of a run, never by `exec` or `step` (log 3). Safe: it only
  takes runs away. -/
  | unwritten (r : Reg)
deriving DecidableEq, Repr

/-- The cause codes of R81. -/
def Fault.code : Fault → Nat
  | .illegalCommand _ => 1
  | .unwritten _ => 2

/-- The reasons a step is refused. -/
inductive Refusal where
  /-- An instruction of the opcode table without a meaning yet: raised by `exec`'s refused arms only. No arm is refused in
  this model. Safe. -/
  | notModelled (mnemonic : String)
  /-- The host's list holds a WriteReg of other than N words: not one of the five operations, since every transfer moves one
  whole register (R26, R27). Raised by `perform` (log 7). Safe: no such event exists in the hardware. -/
  | partialTransfer (r : Reg)
deriving DecidableEq, Repr

/-- Everything the spec gives one instance (R14), and below it the model's own bookkeeping. STATUS is not stored: it is a
view of FLAG and ILL (R19), computed by `State.statusWord`. -/
structure State where
  /-- N, the instance's parameter (R6). No step changes it. -/
  limbCount : LimbCount
  /-- V0 to V7 (R15). -/
  regs : Vector Value 8
  /-- The written mark of each operand register (R16). -/
  written : Vector Bool 8
  /-- FLAG (R17). -/
  flag : Bool
  /-- ILL, sticky (R18). -/
  ill : Bool
  /-- The model's 'pc': the index, in the host's list, of the next command to be issued (R20, log 5). -/
  cmdIndex : Nat
  /-- The model's own: the port operations the host has still to perform, the next one first (R30, log 4). -/
  pending : List PortOp
  /-- The model's own: what the host has read back, the latest first (R26, log 4). -/
  replies : List PortReply
  /-- The model's own: how many times Reset() was performed. It gives each reset its own free register contents (log 2). -/
  epoch : Nat
deriving DecidableEq, Repr

/-- The outcome of a meaning and of a step. -/
abbrev Result := Host.Outcome State Fault Refusal

/-- The register file after reset number `epoch`: every register holds an unspecified value of N limbs (R23, R95). -/
def unspecifiedRegs (n : LimbCount) (epoch : Nat) : Vector Value 8 :=
  #v[Config.unspecifiedValue n epoch 0, Config.unspecifiedValue n epoch 1, Config.unspecifiedValue n epoch 2,
    Config.unspecifiedValue n epoch 3, Config.unspecifiedValue n epoch 4, Config.unspecifiedValue n epoch 5,
    Config.unspecifiedValue n epoch 6, Config.unspecifiedValue n epoch 7]

/-- Every written mark clear (R16, R23). -/
def noneWritten : Vector Bool 8 := #v[false, false, false, false, false, false, false, false]

/-- An instance of limb count `n` right after reset, before any host event (R23, R95). -/
def State.resetOf (n : LimbCount) : State where
  limbCount := n
  regs := unspecifiedRegs n 0
  written := noneWritten
  flag := false
  ill := false
  cmdIndex := 0
  pending := []
  replies := []
  epoch := 0

/-- The machine right after reset, for the instance of `Config.instanceLimbs` (log 1). -/
def State.reset : State := State.resetOf Config.instanceLimbs

end Sys2Proof.Machine
end

