-- ==== Sys2Proof/Machine/Ops.lean ====
section
/-! DEFINITION. The named operations over the state: register reads and writes, FLAG, the STATUS view, the illegal-command
exception, reset, replies to the host (R10, R15 to R19, R26, R82, R95). -/

namespace Sys2Proof.Machine

/-- x[r]: what V<r> holds (R10, R15). A register nothing has written holds an unspecified value (R23, R83). -/
def State.readReg (s : State) (r : Reg) : Value := s.regs[r]

/-- The written mark of V<r> (R16). -/
def State.isWritten (s : State) (r : Reg) : Bool := s.written[r]

/-- x[r] <- v, which sets the written mark of V<r> (R10, R16). No register is hardwired (R15). -/
def State.writeReg (s : State) (r : Reg) (v : Value) : State :=
  { s with regs := s.regs.set r v, written := s.written.set r true }

/-- FLAG <- b (R10, R17). -/
def State.setFlag (s : State) (b : Bool) : State := { s with flag := b }

/-- Taking IllegalCommand: ILL <- 1 and nothing else. Nothing is saved and no control is transferred, so there is no return
from it: only Reset() clears ILL (R82, R86, R87). -/
def State.takeIllegalCommand (s : State) : State := { s with ill := true }

/-- STATUS: bit 0 FLAG, bit 1 ILL, bits 63:2 zero (R19). -/
def State.statusWord (s : State) : StatusWord := BitVec.ofNat 64 (s.flag.toNat + 2 * s.ill.toNat)

/-- What the host reads back is added to what it has read before. -/
def State.reply (s : State) (m : PortReply) : State := { s with replies := m :: s.replies }

/-- Reset(): FLAG = 0, ILL = 0, every written mark clear, every register an unspecified value, new at each reset (R23, R95).
What the host has read and has still to do, and the host's index of its commands, are not the block's (R20, log 5). -/
def State.resetBlock (s : State) : State :=
  { s with
    regs := unspecifiedRegs s.limbCount (s.epoch + 1)
    written := noneWritten
    flag := false
    ill := false
    epoch := s.epoch + 1 }

/-- The index of the next command advances by 1, after an illegal command too (R20). -/
def State.nextCommand (s : State) : State := { s with cmdIndex := s.cmdIndex + 1 }

/-- The host's remaining port operations become `ops`; nothing else changes. -/
def State.withPending (s : State) (ops : List PortOp) : State := { s with pending := ops }

end Sys2Proof.Machine
end

