-- ==== Sys2Proof/Machine/Operands.lean ====
section
/-! DEFINITION. The operand forms (R38, R44, R75, R76): every operand is a register, read whole before any write. -/

namespace Sys2Proof.Machine

/-- The values of a command's two sources. -/
structure TwoSources where
  a : Value
  b : Value
deriving DecidableEq, Repr

/-- a <- x[RS1], b <- x[RS2], both before any write, so a destination may be a source (R44). -/
def State.twoSources (s : State) (rs1 rs2 : Reg) : TwoSources where
  a := s.readReg rs1
  b := s.readReg rs2

/-- sm = s & (W - 1), s being limb 0 of the amount register; its other limbs are ignored (R75). -/
def maskedAmount (n : LimbCount) (amount : Value) : Limb := limbAt amount 0 &&& BitVec.ofNat 64 (n.width - 1)

end Sys2Proof.Machine
end

