-- ==== Sys2Proof/Machine/AddSub.lean ====
section
/-! DEFINITION. ADD and SUB (R54, R56). -/

namespace Sys2Proof.Machine

/-- ADD: x[RD] <- a + b mod 2^W, FLAG <- the final carry (R54). -/
def execAdd (rd rs1 rs2 : Reg) (s : State) : Result :=
  let src := s.twoSources rs1 rs2
  .next ((s.writeReg rd (rippleAdd src.a src.b).1).setFlag (carryFlag src.a src.b))

/-- SUB: x[RD] <- a - b mod 2^W, FLAG <- the final borrow (R56). -/
def execSub (rd rs1 rs2 : Reg) (s : State) : Result :=
  let src := s.twoSources rs1 rs2
  .next ((s.writeReg rd (rippleSub src.a src.b).1).setFlag (borrowFlag src.a src.b))

end Sys2Proof.Machine
end

