-- ==== Sys2Proof/Machine/Compare.lean ====
section
/-! DEFINITION. The five unsigned comparisons (R59 to R63). They write FLAG and no operand register. -/

namespace Sys2Proof.Machine

/-- CMPEQ: FLAG <- EQ(a, b) (R59). -/
def execCmpeq (rs1 rs2 : Reg) (s : State) : Result :=
  let src := s.twoSources rs1 rs2
  .next (s.setFlag (eqFlag src.a src.b))

/-- CMPLT: FLAG <- LT(a, b) (R60). -/
def execCmplt (rs1 rs2 : Reg) (s : State) : Result :=
  let src := s.twoSources rs1 rs2
  .next (s.setFlag (ltFlag src.a src.b))

/-- CMPLTE: FLAG <- LT(a, b) | EQ(a, b) (R61). -/
def execCmplte (rs1 rs2 : Reg) (s : State) : Result :=
  let src := s.twoSources rs1 rs2
  .next (s.setFlag (lteFlag src.a src.b))

/-- CMPGT: FLAG <- LT(b, a) (R62). -/
def execCmpgt (rs1 rs2 : Reg) (s : State) : Result :=
  let src := s.twoSources rs1 rs2
  .next (s.setFlag (gtFlag src.a src.b))

/-- CMPGTE: FLAG <- LT(b, a) | EQ(a, b) (R63). -/
def execCmpgte (rs1 rs2 : Reg) (s : State) : Result :=
  let src := s.twoSources rs1 rs2
  .next (s.setFlag (gteFlag src.a src.b))

end Sys2Proof.Machine
end

