-- ==== Sys2Proof/Machine/Logic.lean ====
section
/-! DEFINITION. AND, OR, XOR and NOT, limb by limb; FLAG unchanged (R65 to R68). -/

namespace Sys2Proof.Machine

/-- AND (R65). -/
def execAnd (rd rs1 rs2 : Reg) (s : State) : Result :=
  let src := s.twoSources rs1 rs2
  .next (s.writeReg rd (limbwiseAnd src.a src.b))

/-- OR (R66). -/
def execOr (rd rs1 rs2 : Reg) (s : State) : Result :=
  let src := s.twoSources rs1 rs2
  .next (s.writeReg rd (limbwiseOr src.a src.b))

/-- XOR (R67). -/
def execXor (rd rs1 rs2 : Reg) (s : State) : Result :=
  let src := s.twoSources rs1 rs2
  .next (s.writeReg rd (limbwiseXor src.a src.b))

/-- NOT: reads RS1 only (R68). -/
def execNot (rd rs1 : Reg) (s : State) : Result :=
  .next (s.writeReg rd (limbwiseNot (s.readReg rs1)))

end Sys2Proof.Machine
end

