-- ==== Sys2Proof/Machine/Multiply.lean ====
section
/-! DEFINITION. MUL and MULF (R69 to R73). -/

namespace Sys2Proof.Machine

/-- The 2N limbs of the product of the two sources (R69 with K = 2N). -/
def State.product (s : State) (rs1 rs2 : Reg) : Value :=
  let src := s.twoSources rs1 rs2
  mulColumns s.limbCount.count src.a src.b (2 * s.limbCount.count)

/-- MUL: x[RD] <- P[W-1:0], FLAG <- [P[2W-1:W] != 0] (R72). -/
def execMul (rd rs1 rs2 : Reg) (s : State) : Result :=
  let p := s.product rs1 rs2
  .next ((s.writeReg rd (lowHalf s.limbCount.count p)).setFlag (overflowFlag s.limbCount.count p))

/-- MULF: x[RD] <- P[W-1:0], x[RD2] <- P[2W-1:W], FLAG unchanged; with RD = RD2 it is an illegal command (R73, log 8). -/
def execMulf (rd rd2 rs1 rs2 : Reg) (s : State) : Result :=
  let p := s.product rs1 rs2
  if rd = rd2 then .next s.takeIllegalCommand
  else .next ((s.writeReg rd (lowHalf s.limbCount.count p)).writeReg rd2 (highHalf s.limbCount.count p))

end Sys2Proof.Machine
end

