-- ==== Sys2Proof/Machine/Shift.lean ====
section
/-! DEFINITION. SHL and SHR (R75 to R78); FLAG unchanged. -/

namespace Sys2Proof.Machine

/-- SHL: x[RD] <- a·2^sm mod 2^W (R78). -/
def execShl (rd rs1 rs2 : Reg) (s : State) : Result :=
  let src := s.twoSources rs1 rs2
  .next (s.writeReg rd (shiftLeft s.limbCount.count src.a (maskedAmount s.limbCount src.b)))

/-- SHR: x[RD] <- a div 2^sm (R77). -/
def execShr (rd rs1 rs2 : Reg) (s : State) : Result :=
  let src := s.twoSources rs1 rs2
  .next (s.writeReg rd (shiftRight s.limbCount.count src.a (maskedAmount s.limbCount src.b)))

end Sys2Proof.Machine
end

