-- ==== Sys2Proof/Machine/Dispatch.lean ====
section
/-! DEFINITION. One arm per command of the opcode map (R40). -/

namespace Sys2Proof.Machine

def exec (i : Instr) (s : State) : Host.Outcome State Fault Refusal :=
  match i with
  | .add rd rs1 rs2 => Sys2Proof.Machine.execAdd rd rs1 rs2 s
  | .sub rd rs1 rs2 => Sys2Proof.Machine.execSub rd rs1 rs2 s
  | .cmpeq rs1 rs2 => Sys2Proof.Machine.execCmpeq rs1 rs2 s
  | .cmplt rs1 rs2 => Sys2Proof.Machine.execCmplt rs1 rs2 s
  | .cmplte rs1 rs2 => Sys2Proof.Machine.execCmplte rs1 rs2 s
  | .cmpgt rs1 rs2 => Sys2Proof.Machine.execCmpgt rs1 rs2 s
  | .cmpgte rs1 rs2 => Sys2Proof.Machine.execCmpgte rs1 rs2 s
  | .and rd rs1 rs2 => Sys2Proof.Machine.execAnd rd rs1 rs2 s
  | .or rd rs1 rs2 => Sys2Proof.Machine.execOr rd rs1 rs2 s
  | .xor rd rs1 rs2 => Sys2Proof.Machine.execXor rd rs1 rs2 s
  | .not rd rs1 => Sys2Proof.Machine.execNot rd rs1 s
  | .mul rd rs1 rs2 => Sys2Proof.Machine.execMul rd rs1 rs2 s
  | .mulf rd rd2 rs1 rs2 => Sys2Proof.Machine.execMulf rd rd2 rs1 rs2 s
  | .shl rd rs1 rs2 => Sys2Proof.Machine.execShl rd rs1 rs2 s
  | .shr rd rs1 rs2 => Sys2Proof.Machine.execShr rd rs1 rs2 s

end Sys2Proof.Machine
end

