-- ==== Sys2Proof/Machine/Port.lean ====
section
/-! DEFINITION. The five host-port operations, the spec's checked reading of them, and how the host's next one is taken
(R20, R26, R30, R44, R81 to R84, R94). -/

namespace Sys2Proof.Machine

/-- Issue(cmd): an illegal word sets ILL and changes nothing else; a legal one has the effect of its command. The host's
index moves past it either way (R20, R44, R82). -/
def issue (cmd : CommandWord) (s : State) : Result :=
  match decode cmd with
  | .error _ => .next s.nextCommand.takeIllegalCommand
  | .ok i => exec i s.nextCommand

/-- One port operation, a single atomic event (R26, R30). -/
def perform (op : PortOp) (s : State) : Result :=
  match op with
  | .writeReg r v => if v.length = s.limbCount.count then .next (s.writeReg r v) else .refused (.partialTransfer r)
  | .readReg r => .next (s.reply (.regValue r (s.readReg r)))
  | .readStatus => .next (s.reply (.status s.statusWord))
  | .issue cmd => issue cmd s
  | .reset => .next s.resetBlock

/-- The host's next operation leaves its list and is performed; with none, the block is idle and keeps its state (R30, R94). -/
def hostEvent (s : State) : Result :=
  match s.pending with
  | [] => .next s
  | op :: rest => perform op (s.withPending rest)

/-- The registers a command reads, in the order they are checked: RS1 for every command, RS2 for every command but NOT
(R44, R84). -/
def sources : Instr → List Reg
  | .add _ rs1 rs2 => [rs1, rs2]
  | .sub _ rs1 rs2 => [rs1, rs2]
  | .cmpeq rs1 rs2 => [rs1, rs2]
  | .cmplt rs1 rs2 => [rs1, rs2]
  | .cmplte rs1 rs2 => [rs1, rs2]
  | .cmpgt rs1 rs2 => [rs1, rs2]
  | .cmpgte rs1 rs2 => [rs1, rs2]
  | .and _ rs1 rs2 => [rs1, rs2]
  | .or _ rs1 rs2 => [rs1, rs2]
  | .xor _ rs1 rs2 => [rs1, rs2]
  | .not _ rs1 => [rs1]
  | .mul _ rs1 rs2 => [rs1, rs2]
  | .mulf _ _ rs1 rs2 => [rs1, rs2]
  | .shl _ rs1 rs2 => [rs1, rs2]
  | .shr _ rs1 rs2 => [rs1, rs2]

/-- The registers a command writes (R15, R40). -/
def destinations : Instr → List Reg
  | .add rd _ _ => [rd]
  | .sub rd _ _ => [rd]
  | .cmpeq _ _ => []
  | .cmplt _ _ => []
  | .cmplte _ _ => []
  | .cmpgt _ _ => []
  | .cmpgte _ _ => []
  | .and rd _ _ => [rd]
  | .or rd _ _ => [rd]
  | .xor rd _ _ => [rd]
  | .not rd _ => [rd]
  | .mul rd _ _ => [rd]
  | .mulf rd rd2 _ _ => [rd, rd2]
  | .shl rd _ _ => [rd]
  | .shr rd _ _ => [rd]

/-- Which commands write FLAG: ADD, SUB, the five compares and MUL (R17). -/
def writesFlag : Instr → Bool
  | .add _ _ _ => true
  | .sub _ _ _ => true
  | .cmpeq _ _ => true
  | .cmplt _ _ => true
  | .cmplte _ _ => true
  | .cmpgt _ _ => true
  | .cmpgte _ _ => true
  | .and _ _ _ => false
  | .or _ _ _ => false
  | .xor _ _ _ => false
  | .not _ _ => false
  | .mul _ _ _ => true
  | .mulf _ _ _ _ => false
  | .shl _ _ _ => false
  | .shr _ _ _ => false

/-- The first register of a list whose written mark is clear. -/
def State.firstUnwritten (s : State) (rs : List Reg) : Option Reg := rs.find? (fun r => !s.isWritten r)

/-- The exception a port operation raises, if any: IllegalCommand is checked first, then RS1, then RS2 (R81, R83, R84). -/
def raised (op : PortOp) (s : State) : Option Fault :=
  match op with
  | .writeReg _ _ => none
  | .readReg r => (s.firstUnwritten [r]).map .unwritten
  | .readStatus => none
  | .issue cmd =>
    match decode cmd with
    | .error _ => some (.illegalCommand cmd)
    | .ok i => (s.firstUnwritten (sources i)).map .unwritten
  | .reset => none

/-- A command under the spec's checked reading: the model fault Unwritten(r) where it reads an unwritten register, with no
write at all, and otherwise its effect (R44, R83).
DESIGN CHOICE (log 8): for MULF with RD = RD2, which no word spells, an unwritten source is the fault before `exec` takes
IllegalCommand. For a word `raised` checks IllegalCommand first (R84). -/
def checkedExec (i : Instr) (s : State) : Result :=
  match s.firstUnwritten (sources i) with
  | some r => .fault (.unwritten r)
  | none => exec i s

/-- A step under the spec's checked reading: it stops with Unwritten(r) where R83 raises it; an illegal command still sets ILL
and goes on (R82). -/
def checkedHostEvent (s : State) : Result :=
  match s.pending with
  | [] => .next s
  | op :: rest =>
    match raised op s with
    | some (.unwritten r) => .fault (.unwritten r)
    | some (.illegalCommand _) => perform op (s.withPending rest)
    | none => perform op (s.withPending rest)

end Sys2Proof.Machine
end

