-- ==== Sys2Proof/Machine/Step.lean ====
section
/-! DEFINITION. One step: the host's next port operation (R26, R30). The block has no program counter and fetches nothing
(R20): the host's list of operations stands for what the host does. -/

namespace Sys2Proof.Machine

/-- One step of the hardware. -/
def step (s : State) : Host.Outcome State Fault Refusal := hostEvent s

/-- One step of the spec's checked model, with the fault Unwritten(r) (R83). -/
def checkedStep (s : State) : Host.Outcome State Fault Refusal := checkedHostEvent s

/-- The state in which the host's next operation is Issue of the word with the given low bits. -/
def State.withFetchWord (s : State) (nbits w : Nat) : State :=
  s.withPending (.issue (tableWord nbits w) :: s.pending)

end Sys2Proof.Machine
end

