-- ==== Sys2Proof/Machine/Pseudo.lean ====
section
/-! DEFINITION. The assembler's three pseudo-instructions (R46). -/

namespace Sys2Proof.Machine

/-- A pseudo-instruction. -/
inductive Pseudo where
  /-- MOV Vd, Vs. -/
  | mov (rd rs : Reg)
  /-- CLR Vd. -/
  | clr (rd : Reg)
  /-- NEG Vd, Vs, Vone. -/
  | neg (rd rs rone : Reg)
deriving DecidableEq, Repr

/-- The commands a pseudo-instruction expands to (R46). -/
def expand : Pseudo → List Instr
  | .mov rd rs => [.or rd rs rs]
  | .clr rd => [.xor rd rd rd]
  | .neg rd rs rone => [.not rd rs, .add rd rd rone]

/-- Commands one after the other, each complete before the next begins (R30, R97). -/
def execAll : List Instr → State → Result
  | [], s => .next s
  | i :: rest, s =>
    match exec i s with
    | .next t => execAll rest t
    | .fault f => .fault f
    | .refused r => .refused r

end Sys2Proof.Machine
end

