-- ==== Sys2Proof/Machine/Assembler.lean ====
section
/-! DEFINITION. The assembler syntax (R45, R46): one command per line, `;` starts a comment, mnemonics and register names are
case-insensitive, destinations come before sources. A line is its list of characters. -/

namespace Sys2Proof.Machine

/-- Why the assembler refuses a line. -/
inductive AsmError where
  /-- The first word is no mnemonic of R40 and no pseudo-instruction of R46. -/
  | unknownMnemonic
  /-- An operand is not one of V0 to V7. -/
  | badOperand
  /-- The number of operands is not the form's. -/
  | operandCount
  /-- MULF names one register for Vlo and Vhi (R45). -/
  | sameDestinations
deriving DecidableEq, Repr

/-- Spaces and tabs separate the parts of a line (log 12). -/
def isBlank (c : Char) : Bool := c == ' ' || c == '\t'

/-- A text without the blanks at its two ends. -/
def trimBlanks (l : List Char) : List Char := ((l.dropWhile isBlank).reverse.dropWhile isBlank).reverse

/-- What stands before the comment, in capitals (R45). -/
def commandText (line : List Char) : List Char := trimBlanks ((line.takeWhile (fun c => c != ';')).map Char.toUpper)

/-- The parts of a text between its commas. -/
def splitAtCommas : List Char → List (List Char)
  | [] => [[]]
  | c :: cs =>
    if c = ',' then [] :: splitAtCommas cs
    else
      match splitAtCommas cs with
      | [] => [[c]]
      | part :: parts => (c :: part) :: parts

/-- The digit of a register name, 0 to 7. -/
def regDigit (r : Reg) : Char :=
  match r with
  | 0 => '0'
  | 1 => '1'
  | 2 => '2'
  | 3 => '3'
  | 4 => '4'
  | 5 => '5'
  | 6 => '6'
  | 7 => '7'

/-- The eight registers in order. -/
def allRegs : List Reg := [0, 1, 2, 3, 4, 5, 6, 7]

/-- A register name, V0 to V7 (R45). -/
def regName (r : Reg) : List Char := ['V', regDigit r]

/-- The register a name in capitals stands for. -/
def parseReg (name : List Char) : Option Reg := allRegs.find? (fun r => regName r == name)

/-- The operands of a command text, separated by commas. -/
def parseOperands (text : List Char) : Option (List Reg) := (splitAtCommas text).mapM (fun p => parseReg (trimBlanks p))

/-- `OP Vd, Vs1, Vs2` and `OP Vd, Vs, Vamt` (R45). -/
def threeRegisterForms : List (List Char × (Reg → Reg → Reg → Instr)) :=
  [(['A', 'D', 'D'], .add), (['S', 'U', 'B'], .sub), (['A', 'N', 'D'], .and), (['O', 'R'], .or), (['X', 'O', 'R'], .xor),
   (['M', 'U', 'L'], .mul), (['S', 'H', 'L'], .shl), (['S', 'H', 'R'], .shr)]

/-- `OP Vs1, Vs2` (R45). -/
def compareForms : List (List Char × (Reg → Reg → Instr)) :=
  [(['C', 'M', 'P', 'E', 'Q'], .cmpeq), (['C', 'M', 'P', 'L', 'T'], .cmplt), (['C', 'M', 'P', 'L', 'T', 'E'], .cmplte),
   (['C', 'M', 'P', 'G', 'T'], .cmpgt), (['C', 'M', 'P', 'G', 'T', 'E'], .cmpgte)]

/-- NOT, MULF and the three pseudo-instructions, whose forms are their own (R45, R46). -/
inductive OtherForm where
  | not
  | mulf
  | mov
  | clr
  | neg
deriving DecidableEq, Repr

/-- The mnemonics of the other forms. -/
def otherForms : List (List Char × OtherForm) :=
  [(['N', 'O', 'T'], .not), (['M', 'U', 'L', 'F'], .mulf), (['M', 'O', 'V'], .mov), (['C', 'L', 'R'], .clr),
   (['N', 'E', 'G'], .neg)]

/-- The commands of one of the other forms with its operands (R45, R46).
DESIGN CHOICE (log 12): R46 says of NEG that Vone must not be Vd and names no refusal, as R45 does for MULF; a NEG with
Vone = Vd is expanded like any other. -/
def assembleOther (form : OtherForm) (operands : List Reg) : Except AsmError (List Instr) :=
  match form, operands with
  | .not, [d, a] => .ok [.not d a]
  | .mulf, [lo, hi, a, b] => if lo = hi then .error .sameDestinations else .ok [.mulf lo hi a b]
  | .mov, [d, a] => .ok (expand (.mov d a))
  | .clr, [d] => .ok (expand (.clr d))
  | .neg, [d, a, one] => .ok (expand (.neg d a one))
  | _, _ => .error .operandCount

/-- The commands of a mnemonic in capitals with its operands (R45, R46). -/
def assembleCommand (mnemonic : List Char) (operands : List Reg) : Except AsmError (List Instr) :=
  match threeRegisterForms.lookup mnemonic, compareForms.lookup mnemonic, otherForms.lookup mnemonic with
  | some mk, _, _ =>
    match operands with
    | [d, a, b] => .ok [mk d a b]
    | _ => .error .operandCount
  | none, some mk, _ =>
    match operands with
    | [a, b] => .ok [mk a b]
    | _ => .error .operandCount
  | none, none, some form => assembleOther form operands
  | none, none, none => .error .unknownMnemonic

/-- The commands one line stands for: none for a line that holds no command, one for a command, and the expansion for a
pseudo-instruction (R45, R46). -/
def assembleLine (line : List Char) : Except AsmError (List Instr) :=
  let text := commandText line
  if text.isEmpty then .ok []
  else
    match parseOperands (trimBlanks (text.dropWhile (fun c => !isBlank c))) with
    | none => .error .badOperand
    | some operands => assembleCommand (text.takeWhile (fun c => !isBlank c)) operands

/-- The commands of a source text, line by line (R45).
DESIGN CHOICE (log 12): R45 speaks of refusing a line and not of the other lines; here one refused line refuses the whole
text, with the error of the first such line. -/
def assembleLines : List (List Char) → Except AsmError (List Instr)
  | [] => .ok []
  | line :: rest =>
    match assembleLine line, assembleLines rest with
    | .ok is, .ok more => .ok (is ++ more)
    | .error e, _ => .error e
    | .ok _, .error e => .error e

/-- The Issue operations of a source text: the words the host issues, in order (R37, R45). -/
def assembleIssues (lines : List (List Char)) : Except AsmError (List PortOp) :=
  match assembleLines lines with
  | .ok is => .ok (is.map (fun i => .issue (encode i)))
  | .error e => .error e

/-- Register names with a comma and a blank between them. -/
def writeRegs : List Reg → List Char
  | [] => []
  | [r] => regName r
  | r :: r' :: rest => regName r ++ [',', ' '] ++ writeRegs (r' :: rest)

/-- The source line of a command: its mnemonic, destinations, then sources (R45). -/
def writeLine : Instr → List Char
  | .add rd rs1 rs2 => ['A', 'D', 'D', ' '] ++ writeRegs [rd, rs1, rs2]
  | .sub rd rs1 rs2 => ['S', 'U', 'B', ' '] ++ writeRegs [rd, rs1, rs2]
  | .cmpeq rs1 rs2 => ['C', 'M', 'P', 'E', 'Q', ' '] ++ writeRegs [rs1, rs2]
  | .cmplt rs1 rs2 => ['C', 'M', 'P', 'L', 'T', ' '] ++ writeRegs [rs1, rs2]
  | .cmplte rs1 rs2 => ['C', 'M', 'P', 'L', 'T', 'E', ' '] ++ writeRegs [rs1, rs2]
  | .cmpgt rs1 rs2 => ['C', 'M', 'P', 'G', 'T', ' '] ++ writeRegs [rs1, rs2]
  | .cmpgte rs1 rs2 => ['C', 'M', 'P', 'G', 'T', 'E', ' '] ++ writeRegs [rs1, rs2]
  | .and rd rs1 rs2 => ['A', 'N', 'D', ' '] ++ writeRegs [rd, rs1, rs2]
  | .or rd rs1 rs2 => ['O', 'R', ' '] ++ writeRegs [rd, rs1, rs2]
  | .xor rd rs1 rs2 => ['X', 'O', 'R', ' '] ++ writeRegs [rd, rs1, rs2]
  | .not rd rs1 => ['N', 'O', 'T', ' '] ++ writeRegs [rd, rs1]
  | .mul rd rs1 rs2 => ['M', 'U', 'L', ' '] ++ writeRegs [rd, rs1, rs2]
  | .mulf rd rd2 rs1 rs2 => ['M', 'U', 'L', 'F', ' '] ++ writeRegs [rd, rd2, rs1, rs2]
  | .shl rd rs1 rs2 => ['S', 'H', 'L', ' '] ++ writeRegs [rd, rs1, rs2]
  | .shr rd rs1 rs2 => ['S', 'H', 'R', ' '] ++ writeRegs [rd, rs1, rs2]

end Sys2Proof.Machine
end

