-- ==== Sys2Proof/Safety.lean ====
section
/-! DEFINITION. The terms claims are stated in: a well-formed state, the number a register denotes, what a command leaves
alone, and the spec's checked runs (R5, R9, R15, R18, R83). -/

namespace Sys2Proof.Machine

/-- W, the operand width of the instance (R6). -/
def State.width (s : State) : Nat := s.limbCount.width

/-- val(x[r]) (R9). -/
def State.regVal (s : State) (r : Reg) : Nat := val (s.readReg r)

/-- Every register holds exactly N limbs (R5, R15). -/
def State.WF (s : State) : Prop := ∀ r : Reg, (s.readReg r).length = s.limbCount.count

/-- The state around the operand registers and FLAG is the same: N, ILL, and the model's own fields. -/
structure SameElsewhere (s t : State) : Prop where
  limbCount : t.limbCount = s.limbCount
  ill : t.ill = s.ill
  cmdIndex : t.cmdIndex = s.cmdIndex
  pending : t.pending = s.pending
  replies : t.replies = s.replies
  epoch : t.epoch = s.epoch

/-- From `s` to `t` only the registers in `dst` (and FLAG, perhaps) changed; those now hold a value of N limbs and are marked
written; every other register and its mark, and the rest of the state, are as before (R15, R16). -/
structure WritesOnly (dst : List Reg) (s t : State) : Prop where
  written : ∀ r ∈ dst, t.isWritten r = true ∧ (t.readReg r).length = s.limbCount.count
  others : ∀ r, r ∉ dst → t.readReg r = s.readReg r ∧ t.isWritten r = s.isWritten r
  elsewhere : SameElsewhere s t

/-- Under the spec's checked reading a command reads RS1 and then RS2: the first of them that nothing has written since
reset is the fault, and with both written the command has its effect (R44, R83, R84). -/
def ChecksBothSources (i : Instr) (rs1 rs2 : Reg) : Prop :=
  ∀ s : State,
    (s.isWritten rs1 = false → checkedExec i s = .fault (.unwritten rs1)) ∧
    (s.isWritten rs1 = true → s.isWritten rs2 = false → checkedExec i s = .fault (.unwritten rs2)) ∧
    (s.isWritten rs1 = true → s.isWritten rs2 = true → checkedExec i s = exec i s)

/-- Under the spec's checked reading a command reads RS1 alone (R44, R68, R83). -/
def ChecksOneSource (i : Instr) (rs1 : Reg) : Prop :=
  ∀ s : State,
    (s.isWritten rs1 = false → checkedExec i s = .fault (.unwritten rs1)) ∧
    (s.isWritten rs1 = true → checkedExec i s = exec i s)

/-- A run of `k` steps of the spec's checked model (R83). -/
def checkedRun : Nat → State → Result
  | 0, s => .next s
  | k + 1, s =>
    match checkedStep s with
    | .next t => checkedRun k t
    | .fault f => .fault f
    | .refused r => .refused r

/-- A good final state of a run: no illegal command was issued since reset (R18). -/
def State.good (s : State) : Bool := !s.ill

/-- A command may be issued: every register it reads has been written since reset (R96). -/
def State.ready (s : State) (i : Instr) : Bool := (sources i).all s.isWritten

/-- The two states agree on everything but the contents of registers nothing has written since reset (and the count of
resets, which only names those contents). -/
structure AgreeOnWritten (s t : State) : Prop where
  limbCount : t.limbCount = s.limbCount
  written : ∀ r, t.isWritten r = s.isWritten r
  regs : ∀ r, s.isWritten r = true → t.readReg r = s.readReg r
  flag : t.flag = s.flag
  ill : t.ill = s.ill
  cmdIndex : t.cmdIndex = s.cmdIndex
  pending : t.pending = s.pending
  replies : t.replies = s.replies

end Sys2Proof.Machine
end

