-- ==== Sys2Proof/Certificates/Slice0/Obligations.lean ====
section
/-! DEFINITION. The statements for the provers. Each docstring names the rule of spec/ it formalises. `State.WF` (every
register holds N limbs) is the only invariant used as a premise; it is stated of reset and of every step below. -/

open Sys2Proof Sys2Proof.Machine

/-! ### The command word -/

/-- R37, R40, R42: the word of every well-formed command decodes to that command. -/
def Obligations.DecodeOfEncodeIsTheCommand : Prop :=
  ∀ i : Instr, i.wellFormed = true → decode (encode i) = .ok i

/-- R37, R40, R42: a word that decodes is the word of its command, and that command is well formed: no bit of a legal word is
dropped, and no two words are one command. -/
def Obligations.DecodedWordIsItsEncoding : Prop :=
  ∀ (w : CommandWord) (i : Instr), decode w = .ok i → i.wellFormed = true ∧ encode i = w

/-- R42: the decoder accepts exactly the words that meet the six conditions, and issuing any other word raises
IllegalCommand. -/
def Obligations.LegalWordsAreExactlyTheDecoded : Prop :=
  ∀ w : CommandWord,
    let opc := (w.extractLsb' 0 5).toNat
    let conditions : Prop :=
      w.extractLsb' 17 15 = 0 ∧ (0x01 ≤ opc ∧ opc ≤ 0x0F) ∧ (opc ≠ 0x0D → w.extractLsb' 14 3 = 0) ∧
        (0x03 ≤ opc ∧ opc ≤ 0x07 → w.extractLsb' 5 3 = 0) ∧ (opc = 0x0B → w.extractLsb' 11 3 = 0) ∧
        (opc = 0x0D → w.extractLsb' 5 3 ≠ w.extractLsb' 14 3)
    ((∃ i, decode w = .ok i) ↔ conditions) ∧ (legal w = true ↔ conditions) ∧
      ∀ s : State, raised (.issue w) s = some (.illegalCommand w) ↔ ¬ conditions

/-- R41: the masks and matches of the fifteen commands. -/
def Obligations.MaskAndMatchSelectTheCommand : Prop :=
  ∀ w : CommandWord,
    ((∃ d a b, decode w = .ok (.add d a b)) ↔ w &&& 0xFFFFC01F = 0x01) ∧
    ((∃ d a b, decode w = .ok (.sub d a b)) ↔ w &&& 0xFFFFC01F = 0x02) ∧
    ((∃ a b, decode w = .ok (.cmpeq a b)) ↔ w &&& 0xFFFFC0FF = 0x03) ∧
    ((∃ a b, decode w = .ok (.cmplt a b)) ↔ w &&& 0xFFFFC0FF = 0x04) ∧
    ((∃ a b, decode w = .ok (.cmplte a b)) ↔ w &&& 0xFFFFC0FF = 0x05) ∧
    ((∃ a b, decode w = .ok (.cmpgt a b)) ↔ w &&& 0xFFFFC0FF = 0x06) ∧
    ((∃ a b, decode w = .ok (.cmpgte a b)) ↔ w &&& 0xFFFFC0FF = 0x07) ∧
    ((∃ d a b, decode w = .ok (.and d a b)) ↔ w &&& 0xFFFFC01F = 0x08) ∧
    ((∃ d a b, decode w = .ok (.or d a b)) ↔ w &&& 0xFFFFC01F = 0x09) ∧
    ((∃ d a b, decode w = .ok (.xor d a b)) ↔ w &&& 0xFFFFC01F = 0x0A) ∧
    ((∃ d a, decode w = .ok (.not d a)) ↔ w &&& 0xFFFFF81F = 0x0B) ∧
    ((∃ d a b, decode w = .ok (.mul d a b)) ↔ w &&& 0xFFFFC01F = 0x0C) ∧
    ((∃ lo hi a b, decode w = .ok (.mulf lo hi a b)) ↔
      w &&& 0xFFFE001F = 0x0D ∧ w.extractLsb' 5 3 ≠ w.extractLsb' 14 3) ∧
    ((∃ d a b, decode w = .ok (.shl d a b)) ↔ w &&& 0xFFFFC01F = 0x0E) ∧
    ((∃ d a b, decode w = .ok (.shr d a b)) ↔ w &&& 0xFFFFC01F = 0x0F)

/-- R43: every reserved encoding is illegal, the all-zero word among them, in every state. -/
def Obligations.ReservedEncodingsAreIllegal : Prop :=
  (∀ w : CommandWord,
    let opc := (opcField w).toNat
    (opc = 0x00 ∨ 0x10 ≤ opc ∨ rsvField w ≠ 0 ∨ (opc ≠ 0x0D ∧ rd2Field w ≠ 0) ∨
      (0x03 ≤ opc ∧ opc ≤ 0x07 ∧ rdField w ≠ 0) ∨ (opc = 0x0B ∧ rs2Field w ≠ 0)) →
    (∀ i, decode w ≠ .ok i) ∧ ∀ s : State, raised (.issue w) s = some (.illegalCommand w)) ∧
  (∀ i, decode 0 ≠ .ok i)

/-- 95_test_vectors.md section 4: words of the spec and the commands they stand for, one for each family, and illegal words.
A sanity statement. -/
def Obligations.WordsOfTheSpecDecode : Prop :=
  decode 0x00000841 = .ok (.add 2 0 1) ∧ decode 0x00002EE2 = .ok (.sub 7 6 5) ∧
  decode 0x00003304 = .ok (.cmplt 3 6) ∧ decode 0x00001A28 = .ok (.and 1 2 3) ∧
  decode 0x000007EB = .ok (.not 7 7) ∧ decode 0x0000458D = .ok (.mulf 4 1 5 0) ∧
  decode 0x0000182E = .ok (.shl 1 0 3) ∧ decode 0x00002EEF = .ok (.shr 7 6 5) ∧
  decode 0x00020021 = .error .reservedBits ∧ decode 0x00000010 = .error .reservedOpcode ∧
  decode 0x00000023 = .error .unusedField ∧ decode 0x0001C0ED = .error .sameDestinations

/-! ### Steps and host operations -/

/-- R44: when the host's next operation issues a word that decodes to a command, the step is that command's effect, after the
operation has left the host's list and the host's index has moved past it (the list and the index are the model's, log 4 and
log 5). The second part says the same of `withFetchWord`. -/
def Obligations.StepRunsTheDecodedCommand : Prop :=
  (∀ (s : State) (w : CommandWord) (i : Instr) (rest : List PortOp), s.pending = .issue w :: rest → decode w = .ok i →
    step s = exec i { s with pending := rest, cmdIndex := s.cmdIndex + 1 }) ∧
  (∀ (s : State) (w : CommandWord) (i : Instr), decode w = .ok i →
    step (s.withFetchWord 32 w.toNat) = exec i { s with cmdIndex := s.cmdIndex + 1 })

/-- R82: a step that issues an illegal word sets ILL and leaves every register, every written mark and FLAG as they are (the
host's list and index move on, log 4 and log 5). -/
def Obligations.IllegalWordOnlySetsIll : Prop :=
  ∀ (s : State) (w : CommandWord) (rest : List PortOp), s.pending = .issue w :: rest → (∀ i, decode w ≠ .ok i) →
    step s = .next { s with pending := rest, cmdIndex := s.cmdIndex + 1, ill := true }

/-- R94: with no host operation to perform the block keeps its whole state (the idle step is the model's reading, log 6). -/
def Obligations.IdleStepKeepsTheState : Prop :=
  ∀ s : State, s.pending = [] → step s = .next s

/-- R26, R27: WriteReg of N words writes that register and its mark and nothing else, FLAG and ILL included. -/
def Obligations.WriteRegWritesOneWholeRegister : Prop :=
  ∀ (s : State) (r : Reg) (v : Value) (rest : List PortOp), s.pending = .writeReg r v :: rest →
    v.length = s.limbCount.count →
    ∃ t, step s = .next t ∧ t.readReg r = v ∧ t.flag = s.flag ∧ t.pending = rest ∧
      WritesOnly [r] { s with pending := rest } t

/-- The model's choice (log 7) on R27: a WriteReg of other than N words is no operation of the port and is refused. -/
def Obligations.PartialTransferIsRefused : Prop :=
  ∀ (s : State) (r : Reg) (v : Value) (rest : List PortOp), s.pending = .writeReg r v :: rest →
    v.length ≠ s.limbCount.count → step s = .refused (.partialTransfer r)

/-- R26: ReadReg returns what the register holds, ReadStatus returns STATUS, and neither changes the block. -/
def Obligations.ReadsReturnAndChangeNothing : Prop :=
  (∀ (s : State) (r : Reg) (rest : List PortOp), s.pending = .readReg r :: rest →
    step s = .next { s with pending := rest, replies := .regValue r (s.readReg r) :: s.replies }) ∧
  (∀ (s : State) (rest : List PortOp), s.pending = .readStatus :: rest →
    step s = .next { s with pending := rest, replies := .status s.statusWord :: s.replies })

/-- R19: STATUS bit 0 is FLAG, bit 1 is ILL, and every other bit reads as zero. -/
def Obligations.StatusShowsFlagAndIll : Prop :=
  ∀ s : State, s.statusWord.getLsbD 0 = s.flag ∧ s.statusWord.getLsbD 1 = s.ill ∧
    ∀ k, 2 ≤ k → s.statusWord.getLsbD k = false

/-- R95: Reset() leaves FLAG = 0, ILL = 0, STATUS = 0 and every written mark clear; the registers hold N limbs of unspecified
value, and the instance keeps its N. That the host's index, its list and what it has read stay across Reset() is the model's
choice (log 5, DESIGN CHOICE; log 4), no part of R95. -/
def Obligations.ResetOperationClearsFlagIllAndMarks : Prop :=
  ∀ (s : State) (rest : List PortOp), s.pending = .reset :: rest →
    ∃ t, step s = .next t ∧ t.flag = false ∧ t.ill = false ∧ t.statusWord = 0 ∧
      (∀ r, t.isWritten r = false ∧ (t.readReg r).length = s.limbCount.count) ∧
      t.limbCount = s.limbCount ∧ t.pending = rest ∧ t.replies = s.replies ∧ t.cmdIndex = s.cmdIndex

/-- R23: the values the spec gives the state right after reset, for an instance of every N, and for `State.reset`. -/
def Obligations.ResetStateIsTheSpecs : Prop :=
  (∀ n : LimbCount, (State.resetOf n).flag = false ∧ (State.resetOf n).ill = false ∧ (State.resetOf n).statusWord = 0 ∧
    (State.resetOf n).limbCount = n ∧ ∀ r, (State.resetOf n).isWritten r = false) ∧
  State.reset = State.resetOf Config.instanceLimbs

/-! ### Whole-machine rules -/

/-- R5, R15: every step keeps every register exactly N limbs long. -/
def Obligations.StepKeepsWellFormed : Prop :=
  ∀ s t : State, s.WF → step s = .next t → t.WF

/-- R5, R23: right after reset every register holds exactly N limbs, for an instance of every N. -/
def Obligations.ResetIsWellFormed : Prop :=
  (∀ n : LimbCount, (State.resetOf n).WF) ∧ State.reset.WF

/-- R5, R6, R7, R15: no step changes N, and a register of a well-formed state stays below 2^W for the instance's one W. -/
def Obligations.StepKeepsTheInstanceWidth : Prop :=
  ∀ s t : State, s.WF → step s = .next t → t.limbCount = s.limbCount ∧ ∀ r, t.regVal r < 2 ^ s.width

/-- R15: in a step, a register or its mark changes only when it is the target of a host write, the destination of the command
issued, or the block is reset. -/
def Obligations.RegistersChangeOnlyAsDestinations : Prop :=
  ∀ (s t : State) (r : Reg), step s = .next t → (t.readReg r ≠ s.readReg r ∨ t.isWritten r ≠ s.isWritten r) →
    (∃ v rest, s.pending = .writeReg r v :: rest) ∨
    (∃ w i rest, s.pending = .issue w :: rest ∧ decode w = .ok i ∧ r ∈ destinations i) ∨
    (∃ rest, s.pending = .reset :: rest)

/-- R17: in a step, FLAG changes only by reset or by a command whose opcode is ADD, SUB, a compare or MUL. -/
def Obligations.FlagChangesOnlyByFlagCommands : Prop :=
  ∀ s t : State, step s = .next t → t.flag ≠ s.flag →
    (∃ rest, s.pending = .reset :: rest) ∨
    (∃ w i rest, s.pending = .issue w :: rest ∧ decode w = .ok i ∧
      (opcField w).toNat ∈ [0x01, 0x02, 0x03, 0x04, 0x05, 0x06, 0x07, 0x0C])

/-- R18, R87: after a step ILL is 1 exactly when the step issued an illegal word, or ILL was 1 and the step was no reset. -/
def Obligations.IllIsSetByIllegalWordsAndSticky : Prop :=
  ∀ s t : State, step s = .next t →
    (t.ill = true ↔
      (∃ w rest, s.pending = .issue w :: rest ∧ ∀ i, decode w ≠ .ok i) ∨
      (s.ill = true ∧ ∀ rest, s.pending ≠ .reset :: rest))

/-- R20 (the index is the model's, log 5): it advances by 1 at every command, an illegal one too, and at nothing else;
that Reset() keeps it is the model's choice (log 5). -/
def Obligations.CommandIndexCountsCommands : Prop :=
  ∀ s t : State, step s = .next t →
    ((∃ w rest, s.pending = .issue w :: rest) → t.cmdIndex = s.cmdIndex + 1) ∧
    ((∀ w rest, s.pending ≠ .issue w :: rest) → t.cmdIndex = s.cmdIndex)

/-- R11, R80: a step stops on no value. It answers a next state, except where the host's list holds a transfer of other than
N words (the model's choice, log 7). -/
def Obligations.StepStopsOnNoValue : Prop :=
  ∀ s : State, (∃ t, step s = .next t) ∨
    (∃ r v rest, s.pending = .writeReg r v :: rest ∧ v.length ≠ s.limbCount.count ∧
      step s = .refused (.partialTransfer r))

/-- R22: what a command writes depends on its source registers alone: not on FLAG, ILL, other registers, marks or history. -/
def Obligations.ResultsDependOnSourcesOnly : Prop :=
  ∀ (i : Instr) (s s' : State), i.wellFormed = true → s.limbCount = s'.limbCount →
    (∀ r ∈ sources i, s.readReg r = s'.readReg r) →
    ∃ t t', exec i s = .next t ∧ exec i s' = .next t' ∧ (∀ d ∈ destinations i, t.readReg d = t'.readReg d) ∧
      (writesFlag i = true → t.flag = t'.flag)

/-! ### The spec's checked reading: unwritten registers -/

/-- R81, R84: IllegalCommand is checked first and reads no register; then RS1, then RS2 (RS1 alone for NOT); a ReadReg checks its
register; the other operations raise nothing. -/
def Obligations.ExceptionPriority : Prop :=
  ∀ s : State,
    (∀ w, (∀ i, decode w ≠ .ok i) → raised (.issue w) s = some (.illegalCommand w)) ∧
    (∀ w i, decode w = .ok i → s.isWritten (rs1Field w) = false →
      raised (.issue w) s = some (.unwritten (rs1Field w))) ∧
    (∀ w i, decode w = .ok i → s.isWritten (rs1Field w) = true → (opcField w).toNat ≠ 0x0B →
      s.isWritten (rs2Field w) = false → raised (.issue w) s = some (.unwritten (rs2Field w))) ∧
    (∀ w i, decode w = .ok i → s.isWritten (rs1Field w) = true →
      ((opcField w).toNat = 0x0B ∨ s.isWritten (rs2Field w) = true) → raised (.issue w) s = none) ∧
    (∀ r, raised (.readReg r) s = if s.isWritten r then none else some (.unwritten r)) ∧
    raised .readStatus s = none ∧ raised .reset s = none ∧ ∀ r v, raised (.writeReg r v) s = none

/-- R83: the checked model has no run the hardware lacks, and stops only on the read of an unwritten register. -/
def Obligations.CheckedStepRefinesStep : Prop :=
  (∀ s t : State, checkedStep s = .next t → step s = .next t) ∧
  (∀ (s : State) (f : Fault), checkedStep s = .fault f →
    ∃ r, f = .unwritten r ∧ s.isWritten r = false ∧
      ((∃ rest, s.pending = .readReg r :: rest) ∨
        ∃ w i rest, s.pending = .issue w :: rest ∧ decode w = .ok i ∧ r ∈ sources i))

/-- R96: a legal command whose every source register has been written since reset runs the same in the checked model. -/
def Obligations.ReadyCommandsPassTheCheck : Prop :=
  ∀ (s : State) (w : CommandWord) (i : Instr) (rest : List PortOp), s.pending = .issue w :: rest → decode w = .ok i →
    s.ready i = true → ∃ t, checkedStep s = .next t ∧ step s = .next t

/-- R16, R22, R83: a run of the checked model does not depend on what unwritten registers hold: two states that agree on
everything else go on agreeing, give the host the same replies, and fault alike. -/
def Obligations.CheckedRunIgnoresUnwrittenContents : Prop :=
  ∀ (k : Nat) (s s' : State), AgreeOnWritten s s' →
    (∀ t, checkedRun k s = .next t → ∃ t', checkedRun k s' = .next t' ∧ AgreeOnWritten t t') ∧
    (∀ f, checkedRun k s = .fault f → checkedRun k s' = .fault f)

/-! ### The commands: encoding, completion, result, flag, frame, and the sources the checked reading checks -/

/-- R54: ADD writes (a + b) mod 2^W to V<RD> and [a + b >= 2^W] to FLAG. -/
def Obligations.AddWritesSumAndCarry : Prop :=
  ∀ rd rs1 rs2 : Reg,
    (∀ w, decode w = .ok (.add rd rs1 rs2) ↔ w = assembleFields 0x01 rd rs1 rs2 0) ∧
    (∀ s : State, s.WF → ∃ t, exec (.add rd rs1 rs2) s = .next t ∧
      t.regVal rd = (s.regVal rs1 + s.regVal rs2) % 2 ^ s.width ∧
      t.flag = decide (2 ^ s.width ≤ s.regVal rs1 + s.regVal rs2) ∧
      WritesOnly [rd] s t) ∧
    ChecksBothSources (.add rd rs1 rs2) rs1 rs2

/-- R56: SUB writes (a - b) mod 2^W (the mathematical modulus) to V<RD> and [a < b] to FLAG. -/
def Obligations.SubWritesDifferenceAndBorrow : Prop :=
  ∀ rd rs1 rs2 : Reg,
    (∀ w, decode w = .ok (.sub rd rs1 rs2) ↔ w = assembleFields 0x02 rd rs1 rs2 0) ∧
    (∀ s : State, s.WF → ∃ t, exec (.sub rd rs1 rs2) s = .next t ∧
      (t.regVal rd : Int) = ((s.regVal rs1 : Int) - s.regVal rs2) % (2 ^ s.width : Int) ∧
      t.flag = decide (s.regVal rs1 < s.regVal rs2) ∧
      WritesOnly [rd] s t) ∧
    ChecksBothSources (.sub rd rs1 rs2) rs1 rs2

/-- R59: CMPEQ writes [a = b] to FLAG and no operand register. -/
def Obligations.CmpeqFlagsEqual : Prop :=
  ∀ rs1 rs2 : Reg,
    (∀ w, decode w = .ok (.cmpeq rs1 rs2) ↔ w = assembleFields 0x03 0 rs1 rs2 0) ∧
    (∀ s : State, s.WF → ∃ t, exec (.cmpeq rs1 rs2) s = .next t ∧
      t.flag = decide (s.regVal rs1 = s.regVal rs2) ∧
      WritesOnly [] s t) ∧
    ChecksBothSources (.cmpeq rs1 rs2) rs1 rs2

/-- R60: CMPLT writes [a < b] to FLAG and no operand register. -/
def Obligations.CmpltFlagsLess : Prop :=
  ∀ rs1 rs2 : Reg,
    (∀ w, decode w = .ok (.cmplt rs1 rs2) ↔ w = assembleFields 0x04 0 rs1 rs2 0) ∧
    (∀ s : State, s.WF → ∃ t, exec (.cmplt rs1 rs2) s = .next t ∧
      t.flag = decide (s.regVal rs1 < s.regVal rs2) ∧
      WritesOnly [] s t) ∧
    ChecksBothSources (.cmplt rs1 rs2) rs1 rs2

/-- R61: CMPLTE writes [a <= b] to FLAG and no operand register. -/
def Obligations.CmplteFlagsLessOrEqual : Prop :=
  ∀ rs1 rs2 : Reg,
    (∀ w, decode w = .ok (.cmplte rs1 rs2) ↔ w = assembleFields 0x05 0 rs1 rs2 0) ∧
    (∀ s : State, s.WF → ∃ t, exec (.cmplte rs1 rs2) s = .next t ∧
      t.flag = decide (s.regVal rs1 ≤ s.regVal rs2) ∧
      WritesOnly [] s t) ∧
    ChecksBothSources (.cmplte rs1 rs2) rs1 rs2

/-- R62: CMPGT writes [a > b] to FLAG and no operand register. -/
def Obligations.CmpgtFlagsGreater : Prop :=
  ∀ rs1 rs2 : Reg,
    (∀ w, decode w = .ok (.cmpgt rs1 rs2) ↔ w = assembleFields 0x06 0 rs1 rs2 0) ∧
    (∀ s : State, s.WF → ∃ t, exec (.cmpgt rs1 rs2) s = .next t ∧
      t.flag = decide (s.regVal rs1 > s.regVal rs2) ∧
      WritesOnly [] s t) ∧
    ChecksBothSources (.cmpgt rs1 rs2) rs1 rs2

/-- R63: CMPGTE writes [a >= b] to FLAG and no operand register. -/
def Obligations.CmpgteFlagsGreaterOrEqual : Prop :=
  ∀ rs1 rs2 : Reg,
    (∀ w, decode w = .ok (.cmpgte rs1 rs2) ↔ w = assembleFields 0x07 0 rs1 rs2 0) ∧
    (∀ s : State, s.WF → ∃ t, exec (.cmpgte rs1 rs2) s = .next t ∧
      t.flag = decide (s.regVal rs1 ≥ s.regVal rs2) ∧
      WritesOnly [] s t) ∧
    ChecksBothSources (.cmpgte rs1 rs2) rs1 rs2

/-- R65: AND acts on each limb alone and leaves FLAG. -/
def Obligations.AndIsLimbwise : Prop :=
  ∀ rd rs1 rs2 : Reg,
    (∀ w, decode w = .ok (.and rd rs1 rs2) ↔ w = assembleFields 0x08 rd rs1 rs2 0) ∧
    (∀ s : State, s.WF → ∃ t, exec (.and rd rs1 rs2) s = .next t ∧
      (∀ j : Nat, j < s.limbCount.count →
        limbAt (t.readReg rd) j = limbAt (s.readReg rs1) j &&& limbAt (s.readReg rs2) j) ∧
      t.flag = s.flag ∧
      WritesOnly [rd] s t) ∧
    ChecksBothSources (.and rd rs1 rs2) rs1 rs2

/-- R66: OR acts on each limb alone and leaves FLAG. -/
def Obligations.OrIsLimbwise : Prop :=
  ∀ rd rs1 rs2 : Reg,
    (∀ w, decode w = .ok (.or rd rs1 rs2) ↔ w = assembleFields 0x09 rd rs1 rs2 0) ∧
    (∀ s : State, s.WF → ∃ t, exec (.or rd rs1 rs2) s = .next t ∧
      (∀ j : Nat, j < s.limbCount.count →
        limbAt (t.readReg rd) j = limbAt (s.readReg rs1) j ||| limbAt (s.readReg rs2) j) ∧
      t.flag = s.flag ∧
      WritesOnly [rd] s t) ∧
    ChecksBothSources (.or rd rs1 rs2) rs1 rs2

/-- R67: XOR acts on each limb alone and leaves FLAG. -/
def Obligations.XorIsLimbwise : Prop :=
  ∀ rd rs1 rs2 : Reg,
    (∀ w, decode w = .ok (.xor rd rs1 rs2) ↔ w = assembleFields 0x0A rd rs1 rs2 0) ∧
    (∀ s : State, s.WF → ∃ t, exec (.xor rd rs1 rs2) s = .next t ∧
      (∀ j : Nat, j < s.limbCount.count →
        limbAt (t.readReg rd) j = limbAt (s.readReg rs1) j ^^^ limbAt (s.readReg rs2) j) ∧
      t.flag = s.flag ∧
      WritesOnly [rd] s t) ∧
    ChecksBothSources (.xor rd rs1 rs2) rs1 rs2

/-- R68: NOT complements each limb, so the result is 2^W - 1 - a; it reads RS1 alone and leaves FLAG. -/
def Obligations.NotIsLimbwiseComplement : Prop :=
  ∀ rd rs1 : Reg,
    (∀ w, decode w = .ok (.not rd rs1) ↔ w = assembleFields 0x0B rd rs1 0 0) ∧
    (∀ s : State, s.WF → ∃ t, exec (.not rd rs1) s = .next t ∧
      (∀ j : Nat, j < s.limbCount.count → limbAt (t.readReg rd) j = ~~~limbAt (s.readReg rs1) j) ∧
      t.regVal rd = 2 ^ s.width - 1 - s.regVal rs1 ∧ t.flag = s.flag ∧
      WritesOnly [rd] s t) ∧
    ChecksOneSource (.not rd rs1) rs1

/-- R71, R72: MUL writes a·b mod 2^W to V<RD> and [a·b >= 2^W] to FLAG. -/
def Obligations.MulWritesLowProductAndOverflow : Prop :=
  ∀ rd rs1 rs2 : Reg,
    (∀ w, decode w = .ok (.mul rd rs1 rs2) ↔ w = assembleFields 0x0C rd rs1 rs2 0) ∧
    (∀ s : State, s.WF → ∃ t, exec (.mul rd rs1 rs2) s = .next t ∧
      t.regVal rd = s.regVal rs1 * s.regVal rs2 % 2 ^ s.width ∧
      t.flag = decide (2 ^ s.width ≤ s.regVal rs1 * s.regVal rs2) ∧
      WritesOnly [rd] s t) ∧
    ChecksBothSources (.mul rd rs1 rs2) rs1 rs2

/-- R73: MULF writes the low half of the exact product to V<RD> and the high half to V<RD2> and leaves FLAG; with RD = RD2
no word is a MULF. That the command as syntax with RD = RD2 then sets ILL is the model's choice (log 8, DEDUCED). -/
def Obligations.MulfWritesTheWholeProduct : Prop :=
  ∀ rd rd2 rs1 rs2 : Reg,
    (rd ≠ rd2 →
      (∀ w, decode w = .ok (.mulf rd rd2 rs1 rs2) ↔ w = assembleFields 0x0D rd rs1 rs2 rd2) ∧
      (∀ s : State, s.WF → ∃ t, exec (.mulf rd rd2 rs1 rs2) s = .next t ∧
        t.regVal rd = s.regVal rs1 * s.regVal rs2 % 2 ^ s.width ∧
        t.regVal rd2 = s.regVal rs1 * s.regVal rs2 / 2 ^ s.width ∧
        t.regVal rd + 2 ^ s.width * t.regVal rd2 = s.regVal rs1 * s.regVal rs2 ∧
        t.flag = s.flag ∧
        WritesOnly [rd, rd2] s t) ∧
      ChecksBothSources (.mulf rd rd2 rs1 rs2) rs1 rs2) ∧
    (rd = rd2 →
      (∀ w, decode w ≠ .ok (.mulf rd rd2 rs1 rs2)) ∧
      ∀ s : State, exec (.mulf rd rd2 rs1 rs2) s = .next { s with ill := true })

/-- R75, R78: SHL writes a·2^sm mod 2^W, sm being limb 0 of the amount register modulo W, and leaves FLAG. -/
def Obligations.ShlMultipliesByThePower : Prop :=
  ∀ rd rs1 rs2 : Reg,
    (∀ w, decode w = .ok (.shl rd rs1 rs2) ↔ w = assembleFields 0x0E rd rs1 rs2 0) ∧
    (∀ s : State, s.WF → ∃ t, exec (.shl rd rs1 rs2) s = .next t ∧
      t.regVal rd = s.regVal rs1 * 2 ^ ((limbAt (s.readReg rs2) 0).toNat % s.width) % 2 ^ s.width ∧
      t.flag = s.flag ∧
      WritesOnly [rd] s t) ∧
    ChecksBothSources (.shl rd rs1 rs2) rs1 rs2

/-- R75, R77: SHR writes a div 2^sm, sm being limb 0 of the amount register modulo W, and leaves FLAG. -/
def Obligations.ShrDividesByThePower : Prop :=
  ∀ rd rs1 rs2 : Reg,
    (∀ w, decode w = .ok (.shr rd rs1 rs2) ↔ w = assembleFields 0x0F rd rs1 rs2 0) ∧
    (∀ s : State, s.WF → ∃ t, exec (.shr rd rs1 rs2) s = .next t ∧
      t.regVal rd = s.regVal rs1 / 2 ^ ((limbAt (s.readReg rs2) 0).toNat % s.width) ∧
      t.flag = s.flag ∧
      WritesOnly [rd] s t) ∧
    ChecksBothSources (.shr rd rs1 rs2) rs1 rs2

/-! ### Laws between commands -/

/-- R57: SUB of b from the sum that ADD wrote gives a back, and the SUB borrows exactly when the ADD carried. -/
def Obligations.SubUndoesAdd : Prop :=
  ∀ (s : State) (rt ra rb rr : Reg), s.WF → rt ≠ rb →
    ∃ t u, exec (.add rt ra rb) s = .next t ∧ exec (.sub rr rt rb) t = .next u ∧
      u.readReg rr = s.readReg ra ∧ u.flag = t.flag

/-- R64: LT is the order of the unsigned values; exactly one of LT(a, b), EQ(a, b), LT(b, a) is 1, and the other comparisons
are their compositions. -/
def Obligations.ComparisonsAreATotalOrder : Prop :=
  ∀ (s : State) (ra rb : Reg), s.WF →
    ∃ lt gtSwapped eq lte gt gte : State,
      exec (.cmplt ra rb) s = .next lt ∧ exec (.cmplt rb ra) s = .next gtSwapped ∧ exec (.cmpeq ra rb) s = .next eq ∧
      exec (.cmplte ra rb) s = .next lte ∧ exec (.cmpgt ra rb) s = .next gt ∧ exec (.cmpgte ra rb) s = .next gte ∧
      lt.flag = decide (s.regVal ra < s.regVal rb) ∧
      lt.flag.toNat + eq.flag.toNat + gtSwapped.flag.toNat = 1 ∧
      lte.flag = !gtSwapped.flag ∧ gt.flag = gtSwapped.flag ∧ gte.flag = !lt.flag

/-- R71, R74: MUL's FLAG is [a·b >= 2^W], which is 0 exactly when MULF's high half is 0; MULF's low half is MUL's result; and
both products are commutative. -/
def Obligations.MulAndMulfAgree : Prop :=
  ∀ (s : State) (ra rb rd rlo rhi : Reg), s.WF → rlo ≠ rhi →
    ∃ m m' f f' : State,
      exec (.mul rd ra rb) s = .next m ∧ exec (.mul rd rb ra) s = .next m' ∧
      exec (.mulf rlo rhi ra rb) s = .next f ∧ exec (.mulf rlo rhi rb ra) s = .next f' ∧
      m.flag = decide (2 ^ s.width ≤ s.regVal ra * s.regVal rb) ∧
      f.readReg rlo = m.readReg rd ∧ (f.regVal rhi = 0 ↔ m.flag = false) ∧
      m' = m ∧ f' = f

/-- R79: SHR gives a div 2^(s mod W), SHL gives a·2^(s mod W) mod 2^W, and both are the identity when s is a multiple
of W. -/
def Obligations.ShiftLaws : Prop :=
  ∀ (s : State) (rd ra rs : Reg), s.WF →
    ∃ l r : State, exec (.shl rd ra rs) s = .next l ∧ exec (.shr rd ra rs) s = .next r ∧
      r.regVal rd = s.regVal ra / 2 ^ ((limbAt (s.readReg rs) 0).toNat % s.width) ∧
      l.regVal rd = s.regVal ra * 2 ^ ((limbAt (s.readReg rs) 0).toNat % s.width) % 2 ^ s.width ∧
      (s.width ∣ (limbAt (s.readReg rs) 0).toNat → l.readReg rd = s.readReg ra ∧ r.readReg rd = s.readReg ra)

/-! ### The datapath -/

/-- R47, R48: the two-step add-with-carry gives the sum modulo 2^64 and the carry, and at most one of its two additions
carries. -/
def Obligations.AddWithCarryIsTheSum : Prop :=
  ∀ (cin : Bool) (a b : Limb),
    (addWithCarry cin a b).1.toNat = (a.toNat + b.toNat + cin.toNat) % 2 ^ 64 ∧
    (addWithCarry cin a b).2 = decide (2 ^ 64 ≤ a.toNat + b.toNat + cin.toNat) ∧
    ¬ (2 ^ 64 ≤ a.toNat + b.toNat ∧ 2 ^ 64 ≤ (a + b).toNat + cin.toNat)

/-- R49: the two-step subtract-with-borrow gives the difference modulo 2^64 and the borrow, and at most one of its two
subtractions borrows. -/
def Obligations.SubWithBorrowIsTheDifference : Prop :=
  ∀ (bin : Bool) (a b : Limb),
    ((subWithBorrow bin a b).1.toNat : Int) = ((a.toNat : Int) - b.toNat - bin.toNat) % (2 ^ 64 : Int) ∧
    (subWithBorrow bin a b).2 = decide (a.toNat < b.toNat + bin.toNat) ∧
    ¬ (a.toNat < b.toNat ∧ (a - b).toNat < bin.toNat)

/-- R50: the widening multiply gives the two halves of the exact product, and the high half is at most 2^64 - 2. -/
def Obligations.WideningMultiplyIsExact : Prop :=
  ∀ a b : Limb,
    (wideningMultiply a b).low.toNat = a.toNat * b.toNat % 2 ^ 64 ∧
    (wideningMultiply a b).high.toNat = a.toNat * b.toNat / 2 ^ 64 ∧
    (wideningMultiply a b).high.toNat ≤ 2 ^ 64 - 2

/-- R51: the source's multiply-accumulate is the sum modulo 2^128, and it is exact exactly when `lost` is 0. -/
def Obligations.MultiplyAccumulateLosesOneBit : Prop :=
  ∀ accHigh accLow a b : Limb,
    let r := multiplyAccumulate accHigh accLow a b
    let exact := accLow.toNat + 2 ^ 64 * accHigh.toNat + a.toNat * b.toNat
    r.low.toNat + 2 ^ 64 * r.high.toNat = exact % 2 ^ 128 ∧ r.lost = decide (2 ^ 128 ≤ exact)

/-- R52: the widened multiply-accumulate is the sum modulo 2^192, and its low two words are those of R51. -/
def Obligations.MultiplyAccumulate3KeepsTheBit : Prop :=
  ∀ (acc : Accumulator) (a b : Limb),
    (multiplyAccumulate3 acc a b).toNat = (acc.toNat + a.toNat * b.toNat) % 2 ^ 192 ∧
    (multiplyAccumulate3 acc a b).low = (multiplyAccumulate acc.high acc.low a b).low ∧
    (multiplyAccumulate3 acc a b).high = (multiplyAccumulate acc.high acc.low a b).high

/-- R58: the zero test is [d = 0]; it is the whole value of the source's formula with a logical shift and bit 0 of it with an
arithmetic one, which gives 0xFFFFFFFFFFFFFFFE for every d that is not 0. -/
def Obligations.ZeroTestIsBitZeroOfTheFormula : Prop :=
  ∀ d : Limb,
    isZero d = decide (d = 0) ∧
    zeroFormulaLogical d = (if d = 0 then 1 else 0) ∧
    zeroFormulaArithmetic d = (if d = 0 then 1 else 0xFFFFFFFFFFFFFFFE) ∧
    (zeroFormulaLogical d).getLsbD 0 = isZero d ∧ (zeroFormulaArithmetic d).getLsbD 0 = isZero d

/-- R69: K output columns are the product modulo 2^(64·K); for K = 2N the product is exact and the accumulator ends at 0. -/
def Obligations.ColumnsGiveTheProduct : Prop :=
  ∀ (n : LimbCount) (a b : Value), a.length = n.count → b.length = n.count →
    (∀ cols : Nat, val (mulColumns n.count a b cols) = val a * val b % 2 ^ (64 * cols)) ∧
    val (mulColumns n.count a b (2 * n.count)) = val a * val b ∧
    (columnTotals n.count a b (2 * n.count) 0 Accumulator.zero).getLast?.map Accumulator.carryOut =
      some Accumulator.zero

/-- R70: every column total is below N·2^128 and carries less than N·2^64 into the next column, and all-ones operands reach a
total of exactly 128 + log2(N) bits. -/
def Obligations.ColumnTotalsAreBounded : Prop :=
  (∀ (n : LimbCount) (a b : Value), a.length = n.count → b.length = n.count →
    ∀ total ∈ columnTotals n.count a b (2 * n.count) 0 Accumulator.zero,
      total.toNat < n.count * 2 ^ 128 ∧ total.carryOut.toNat < n.count * 2 ^ 64 ∧
        total.toNat < 2 ^ (128 + Nat.log2 n.count)) ∧
  (∀ n : LimbCount,
    ∃ total ∈ columnTotals n.count (List.replicate n.count 0xFFFFFFFFFFFFFFFF)
        (List.replicate n.count 0xFFFFFFFFFFFFFFFF) (2 * n.count) 0 Accumulator.zero,
      2 ^ (127 + Nat.log2 n.count) ≤ total.toNat)

/-! ### The assembler -/

/-- R46: the three pseudo-instructions, their expansions and their effects. Two parts go past R46's conditions and are the
model's choice: the expansion of a NEG with Vone = Vd (log 12), and the value of a CLR whose Vd nothing has written since reset
(log 2 and log 3: `exec` runs it on what the register holds). -/
def Obligations.PseudoInstructionsCompute : Prop :=
  (∀ rd rs : Reg, expand (.mov rd rs) = [.or rd rs rs] ∧
    ∀ s : State, s.WF → ∃ t, execAll (expand (.mov rd rs)) s = .next t ∧ t.readReg rd = s.readReg rs ∧
      t.flag = s.flag ∧ WritesOnly [rd] s t) ∧
  (∀ rd : Reg, expand (.clr rd) = [.xor rd rd rd] ∧
    (∀ s : State, s.isWritten rd = false → checkedExec (.xor rd rd rd) s = .fault (.unwritten rd)) ∧
    ∀ s : State, s.WF → ∃ t, execAll (expand (.clr rd)) s = .next t ∧ t.regVal rd = 0 ∧
      t.flag = s.flag ∧ WritesOnly [rd] s t) ∧
  (∀ rd rs rone : Reg, expand (.neg rd rs rone) = [.not rd rs, .add rd rd rone] ∧
    ∀ s : State, s.WF → s.regVal rone = 1 → rone ≠ rd →
      ∃ t, execAll (expand (.neg rd rs rone)) s = .next t ∧
        t.regVal rd = (2 ^ s.width - s.regVal rs) % 2 ^ s.width ∧ t.flag = decide (s.regVal rs = 0) ∧
        WritesOnly [rd] s t)

/-- R45: a command written in its source form assembles to that command; a MULF with one register for Vlo and Vhi is
refused. -/
def Obligations.SourceFormAssemblesToTheCommand : Prop :=
  (∀ i : Instr, i.wellFormed = true → assembleLine (writeLine i) = .ok [i]) ∧
  (∀ lo a b : Reg, assembleLine (writeLine (.mulf lo lo a b)) = .error .sameDestinations)
end

