-- ==== Sys2Proof/Laws/Limbs.lean ====
section
/-! SUPPORT. What each limb primitive computes, as numbers (R47, R49 to R52). -/

namespace Sys2Proof.Machine

@[simp] theorem bitLimb_toNat (c : Bool) : (bitLimb c).toNat = c.toNat := by cases c <;> rfl

/-- An OR of two decisions as a number, one case for each of the three ways it can come out. -/
theorem toNat_decide_or (p q : Prop) [Decidable p] [Decidable q] :
    (p ∧ (decide p || decide q).toNat = 1) ∨ (q ∧ (decide p || decide q).toNat = 1) ∨
      (¬p ∧ ¬q ∧ (decide p || decide q).toNat = 0) := by
  by_cases hp : p <;> by_cases hq : q <;> simp [hp, hq]

/-- The two-step sum is the exact sum of a, b and the carry in, split at 2^64 (R47, R48). -/
theorem addWithCarry_exact (cin : Bool) (a b : Limb) :
    (addWithCarry cin a b).1.toNat + 2 ^ 64 * (addWithCarry cin a b).2.toNat = a.toNat + b.toNat + cin.toNat := by
  have ha := a.isLt
  have hb := b.isLt
  have hc := Bool.toNat_le cin
  simp only [addWithCarry, BitVec.toNat_add, bitLimb_toNat]
  rcases toNat_decide_or (2 ^ 64 ≤ a.toNat + b.toNat) (2 ^ 64 ≤ (a.toNat + b.toNat) % 2 ^ 64 + cin.toNat) with
    ⟨h1, h⟩ | ⟨h1, h⟩ | ⟨h1, h2, h⟩ <;> rw [h] <;> omega

/-- The two-step difference is exact: what it lacks is 2^64 times the borrow (R49). -/
theorem subWithBorrow_exact (bin : Bool) (a b : Limb) :
    (subWithBorrow bin a b).1.toNat + b.toNat + bin.toNat = a.toNat + 2 ^ 64 * (subWithBorrow bin a b).2.toNat := by
  have ha := a.isLt
  have hb := b.isLt
  have hc := Bool.toNat_le bin
  simp only [subWithBorrow, BitVec.toNat_sub, bitLimb_toNat]
  rcases toNat_decide_or (a.toNat < b.toNat) ((2 ^ 64 - b.toNat + a.toNat) % 2 ^ 64 < bin.toNat) with
    ⟨h1, h⟩ | ⟨h1, h⟩ | ⟨h1, h2, h⟩ <;> rw [h] <;> omega

/-- The two halves are the exact product (R50). -/
theorem wideningMultiply_exact (a b : Limb) :
    (wideningMultiply a b).low.toNat + 2 ^ 64 * (wideningMultiply a b).high.toNat = a.toNat * b.toNat := by
  have h : a.toNat * b.toNat < 2 ^ 64 * 2 ^ 64 := Nat.mul_lt_mul'' a.isLt b.isLt
  have h2 : a.toNat * b.toNat / 2 ^ 64 < 2 ^ 64 := Nat.div_lt_of_lt_mul h
  simp only [wideningMultiply, BitVec.toNat_ofNat, Nat.mod_eq_of_lt h2]
  omega

theorem wideningMultiply_high_le (a b : Limb) : (wideningMultiply a b).high.toNat ≤ 2 ^ 64 - 2 := by
  have h := wideningMultiply_exact a b
  have h3 : a.toNat * b.toNat ≤ (2 ^ 64 - 1) * (2 ^ 64 - 1) :=
    Nat.mul_le_mul (Nat.le_sub_one_of_lt a.isLt) (Nat.le_sub_one_of_lt b.isLt)
  omega

@[simp] theorem Accumulator.toNat_zero : Accumulator.zero.toNat = 0 := rfl

theorem Accumulator.toNat_lt (acc : Accumulator) : acc.toNat < 2 ^ 192 := by
  have h1 := acc.top.isLt
  have h2 := acc.high.isLt
  have h3 := acc.low.isLt
  unfold Accumulator.toNat
  omega

/-- A column's low word and what it carries out make up its total (R69). -/
theorem Accumulator.toNat_carryOut (acc : Accumulator) : acc.toNat = acc.low.toNat + 2 ^ 64 * acc.carryOut.toNat := by
  have h0 : (0 : Limb).toNat = 0 := rfl
  simp only [Accumulator.toNat, Accumulator.carryOut, h0]
  omega

/-- multiply_accumulate3 adds the product, modulo 2^192 (R52). -/
theorem multiplyAccumulate3_toNat (acc : Accumulator) (a b : Limb) :
    (multiplyAccumulate3 acc a b).toNat = (acc.toNat + a.toNat * b.toNat) % 2 ^ 192 := by
  have hp := wideningMultiply_exact a b
  have h1 := addWithCarry_exact false acc.low (wideningMultiply a b).low
  have h2 := addWithCarry_exact (addWithCarry false acc.low (wideningMultiply a b).low).2 acc.high
    (wideningMultiply a b).high
  simp only [multiplyAccumulate3, Accumulator.toNat, BitVec.toNat_add, bitLimb_toNat]
  generalize addWithCarry (addWithCarry false acc.low (wideningMultiply a b).low).2 acc.high
    (wideningMultiply a b).high = high at h2 ⊢
  generalize addWithCarry false acc.low (wideningMultiply a b).low = low at h1 h2 ⊢
  generalize a.toNat * b.toNat = p at *
  have := low.1.isLt
  have := high.1.isLt
  have := Bool.toNat_le high.2
  have := acc.top.isLt
  simp only [Bool.toNat_false] at h1
  omega

end Sys2Proof.Machine
end

