-- ==== Sys2Proof/Laws/Value.lean ====
section
/-! SUPPORT. The number a value denotes: its bounds, its bits, and that N limbs and their number determine each other (R5, R9). -/

namespace Sys2Proof

@[simp] theorem val_nil : val [] = 0 := rfl
theorem val_cons (x : Limb) (xs : Value) : val (x :: xs) = x.toNat + 2 ^ 64 * val xs := rfl

theorem two_pow_limbs_succ (n : Nat) : 2 ^ (64 * (n + 1)) = 2 ^ 64 * 2 ^ (64 * n) := by
  rw [← Nat.pow_add]; congr 1; omega

/-- An N-limb value is below 2^(64·N). -/
theorem val_lt (a : Value) : val a < 2 ^ (64 * a.length) := by
  induction a with
  | nil => simp
  | cons x xs ih =>
    rw [val_cons, List.length_cons, two_pow_limbs_succ]
    have hx := x.isLt
    generalize 2 ^ (64 * xs.length) = p at ih ⊢
    have : 2 ^ 64 * val xs + 2 ^ 64 ≤ 2 ^ 64 * p := by
      rw [← Nat.mul_succ]; exact Nat.mul_le_mul_left _ ih
    omega

/-- Equal length and equal number mean equal limbs. -/
theorem val_injective : ∀ {a b : Value}, a.length = b.length → val a = val b → a = b
  | [], [], _, _ => rfl
  | x :: xs, y :: ys, hl, hv => by
    rw [val_cons, val_cons] at hv
    have hx := x.isLt
    have hy := y.isLt
    have h1 : x.toNat = y.toNat := by omega
    have h2 : val xs = val ys := by omega
    rw [BitVec.eq_of_toNat_eq h1, val_injective (by simpa using hl) h2]

theorem val_append (a b : Value) : val (a ++ b) = val a + 2 ^ (64 * a.length) * val b := by
  induction a with
  | nil => simp
  | cons x xs ih =>
    rw [List.cons_append, val_cons, ih, val_cons, List.length_cons, two_pow_limbs_succ]
    ring

theorem val_replicate_zero (n : Nat) : val (List.replicate n 0) = 0 := by
  induction n with
  | zero => rfl
  | succ n ih => rw [List.replicate_succ, val_cons, ih]; rfl

theorem val_eq_zero_iff (a : Value) : val a = 0 ↔ ∀ x ∈ a, x = 0 := by
  induction a with
  | nil => simp
  | cons x xs ih =>
    rw [val_cons, List.forall_mem_cons, ← ih]
    constructor
    · intro h
      exact ⟨BitVec.eq_of_toNat_eq (by simp; omega), by omega⟩
    · rintro ⟨rfl, h⟩
      simp [h]

namespace Machine

@[simp] theorem limbAt_natCast (a : Value) (k : Nat) : limbAt a (k : Int) = a.getD k 0 := rfl

theorem limbAt_of_neg (a : Value) {k : Int} (h : k < 0) : limbAt a k = 0 := by
  match k, h with
  | .negSucc _, _ => rfl

theorem limbAt_of_length_le (a : Value) {k : Nat} (h : a.length ≤ k) : limbAt a (k : Int) = 0 :=
  List.getD_eq_default _ _ h

/-- Bit p of a value is bit p mod 64 of its limb p div 64. -/
theorem val_testBit (a : Value) (p : Nat) : (val a).testBit p = (a.getD (p / 64) 0).getLsbD (p % 64) := by
  induction a generalizing p with
  | nil => simp
  | cons x xs ih =>
    rw [val_cons, Nat.add_comm, Nat.testBit_two_pow_mul_add _ x.isLt]
    split
    · next h =>
      rw [Nat.div_eq_of_lt h, Nat.mod_eq_of_lt h]
      rfl
    · next h =>
      have h1 : p / 64 = (p - 64) / 64 + 1 := by omega
      have h2 : p % 64 = (p - 64) % 64 := by omega
      rw [ih, h1, h2]
      rfl

/-- A value's own limbs are those of the list of its first `n` entries. -/
theorem getD_map_range (f : Nat → Limb) (n k : Nat) :
    ((List.range n).map f).getD k 0 = if k < n then f k else 0 := by
  split
  · next h => simp [List.getD_eq_getElem?_getD, h]
  · next h => simp [List.getD_eq_getElem?_getD, h]

end Machine

end Sys2Proof
end

