-- ==== Sys2Proof/Laws/Chains.lean ====
section
/-! SUPPORT. What the carry chain, the borrow chain, the limb-wise units and the comparisons compute (R53, R55, R59 to R68),
the order of R64 among it. -/

namespace Sys2Proof.Machine

/-! ### The carry chain -/

@[simp] theorem length_rippleAddFrom (c : Bool) (a b : Value) :
    (rippleAddFrom c a b).1.length = min a.length b.length := by
  induction a generalizing b c with
  | nil => simp [rippleAddFrom]
  | cons x xs ih =>
    cases b with
    | nil => simp [rippleAddFrom]
    | cons y ys => simp [rippleAddFrom, ih]

/-- The limbs and the final carry together are the exact sum (R53, by induction on the limbs). -/
theorem rippleAddFrom_exact (c : Bool) {a b : Value} (h : a.length = b.length) :
    val (rippleAddFrom c a b).1 + 2 ^ (64 * a.length) * (rippleAddFrom c a b).2.toNat = val a + val b + c.toNat := by
  induction a generalizing b c with
  | nil =>
    obtain rfl := List.length_eq_zero_iff.mp h.symm
    simp [rippleAddFrom]
  | cons x xs ih =>
    match b, h with
    | y :: ys, h =>
      have h1 := addWithCarry_exact c x y
      have h2 := ih (addWithCarry c x y).2 (b := ys) (by simpa using h)
      simp only [rippleAddFrom, val_cons, List.length_cons, two_pow_limbs_succ]
      linear_combination h1 + 2 ^ 64 * h2

@[simp] theorem length_rippleAdd (a b : Value) : (rippleAdd a b).1.length = min a.length b.length :=
  length_rippleAddFrom _ _ _

theorem val_rippleAdd {a b : Value} (h : a.length = b.length) :
    val (rippleAdd a b).1 = (val a + val b) % 2 ^ (64 * a.length) := by
  have h1 := rippleAddFrom_exact false h
  have h2 := val_lt (rippleAddFrom false a b).1
  rw [length_rippleAddFrom, ← h, Nat.min_self] at h2
  rw [Bool.toNat_false, Nat.add_zero] at h1
  rw [rippleAdd, ← h1, Nat.add_mul_mod_self_left, Nat.mod_eq_of_lt h2]

theorem carryFlag_eq {a b : Value} (h : a.length = b.length) :
    carryFlag a b = decide (2 ^ (64 * a.length) ≤ val a + val b) := by
  have h1 := rippleAddFrom_exact false h
  have h2 := val_lt (rippleAddFrom false a b).1
  rw [length_rippleAddFrom, ← h, Nat.min_self] at h2
  rw [carryFlag, rippleAdd]
  cases hc : (rippleAddFrom false a b).2 <;> simp [hc] at h1 ⊢ <;> omega

/-! ### The borrow chain -/

@[simp] theorem length_rippleSubFrom (w : Bool) (a b : Value) :
    (rippleSubFrom w a b).1.length = min a.length b.length := by
  induction a generalizing b w with
  | nil => simp [rippleSubFrom]
  | cons x xs ih =>
    cases b with
    | nil => simp [rippleSubFrom]
    | cons y ys => simp [rippleSubFrom, ih]

/-- The difference is exact: what it lacks is 2^(64·N) times the final borrow (R55, by induction on the limbs). -/
theorem rippleSubFrom_exact (w : Bool) {a b : Value} (h : a.length = b.length) :
    val (rippleSubFrom w a b).1 + val b + w.toNat = val a + 2 ^ (64 * a.length) * (rippleSubFrom w a b).2.toNat := by
  induction a generalizing b w with
  | nil =>
    obtain rfl := List.length_eq_zero_iff.mp h.symm
    simp [rippleSubFrom]
  | cons x xs ih =>
    match b, h with
    | y :: ys, h =>
      have h1 := subWithBorrow_exact w x y
      have h2 := ih (subWithBorrow w x y).2 (b := ys) (by simpa using h)
      simp only [rippleSubFrom, val_cons, List.length_cons, two_pow_limbs_succ]
      linear_combination h1 + 2 ^ 64 * h2

@[simp] theorem length_rippleSub (a b : Value) : (rippleSub a b).1.length = min a.length b.length :=
  length_rippleSubFrom _ _ _

theorem ltFlag_eq {a b : Value} (h : a.length = b.length) : ltFlag a b = decide (val a < val b) := by
  have h1 := rippleSubFrom_exact false h
  have h2 := val_lt (rippleSubFrom false a b).1
  have h3 := val_lt b
  rw [length_rippleSubFrom, ← h, Nat.min_self] at h2
  rw [ltFlag, rippleSub]
  cases hc : (rippleSubFrom false a b).2 <;> simp [hc] at h1 ⊢ <;> omega

theorem borrowFlag_eq {a b : Value} (h : a.length = b.length) : borrowFlag a b = decide (val a < val b) := ltFlag_eq h

/-- The difference modulo 2^(64·N), written without a negative number. -/
theorem val_rippleSub {a b : Value} (h : a.length = b.length) :
    val (rippleSub a b).1 = (val a + (2 ^ (64 * a.length) - val b)) % 2 ^ (64 * a.length) := by
  have h1 := rippleSubFrom_exact false h
  have h2 := val_lt (rippleSubFrom false a b).1
  have h3 := val_lt b
  have h4 := val_lt a
  rw [length_rippleSubFrom, ← h, Nat.min_self] at h2
  rw [← h] at h3
  rw [rippleSub]
  generalize 2 ^ (64 * a.length) = p at *
  cases hc : (rippleSubFrom false a b).2 <;> simp [hc] at h1
  · rw [show val a + (p - val b) = val (rippleSubFrom false a b).1 + p by omega, Nat.add_mod_right,
      Nat.mod_eq_of_lt h2]
  · rw [show val a + (p - val b) = val (rippleSubFrom false a b).1 by omega, Nat.mod_eq_of_lt h2]

/-! ### The limb-wise units -/

@[simp] theorem length_limbwiseAnd (a b : Value) : (limbwiseAnd a b).length = min a.length b.length := by
  simp [limbwiseAnd]
@[simp] theorem length_limbwiseOr (a b : Value) : (limbwiseOr a b).length = min a.length b.length := by
  simp [limbwiseOr]
@[simp] theorem length_limbwiseXor (a b : Value) : (limbwiseXor a b).length = min a.length b.length := by
  simp [limbwiseXor]
@[simp] theorem length_limbwiseNot (a : Value) : (limbwiseNot a).length = a.length := by
  simp [limbwiseNot]

/-- A limb-wise unit acts on each limb alone. -/
theorem getD_zipWith (f : Limb → Limb → Limb) (h0 : f 0 0 = 0) {a b : Value} (h : a.length = b.length) (k : Nat) :
    (List.zipWith f a b).getD k 0 = f (a.getD k 0) (b.getD k 0) := by
  induction a generalizing b k with
  | nil =>
    obtain rfl := List.length_eq_zero_iff.mp h.symm
    simpa using h0.symm
  | cons x xs ih =>
    match b, h with
    | y :: ys, h =>
      cases k with
      | zero => rfl
      | succ k => simpa using ih (b := ys) (by simpa using h) k

theorem limbAt_limbwiseAnd {a b : Value} (h : a.length = b.length) (k : Nat) :
    limbAt (limbwiseAnd a b) k = limbAt a k &&& limbAt b k := getD_zipWith _ (by decide) h k
theorem limbAt_limbwiseOr {a b : Value} (h : a.length = b.length) (k : Nat) :
    limbAt (limbwiseOr a b) k = limbAt a k ||| limbAt b k := getD_zipWith _ (by decide) h k
theorem limbAt_limbwiseXor {a b : Value} (h : a.length = b.length) (k : Nat) :
    limbAt (limbwiseXor a b) k = limbAt a k ^^^ limbAt b k := getD_zipWith _ (by decide) h k

theorem limbAt_limbwiseNot (a : Value) {k : Nat} (h : k < a.length) : limbAt (limbwiseNot a) k = ~~~limbAt a k := by
  simp [limbwiseNot, h]

/-- A value and its complement add up to all ones (R68). -/
theorem val_limbwiseNot (a : Value) : val (limbwiseNot a) + val a + 1 = 2 ^ (64 * a.length) := by
  induction a with
  | nil => rfl
  | cons x xs ih =>
    have h1 : (~~~x).toNat + x.toNat + 1 = 2 ^ 64 := by
      have := x.isLt
      rw [BitVec.toNat_not]; omega
    have h2 : val (limbwiseNot (x :: xs)) = (~~~x).toNat + 2 ^ 64 * val (limbwiseNot xs) := rfl
    rw [h2, val_cons, List.length_cons, two_pow_limbs_succ]
    linear_combination h1 + 2 ^ 64 * ih

/-! ### The comparisons -/

theorem foldl_or_eq_zero_iff (xs : List Limb) (d : Limb) :
    xs.foldl (fun d x => d ||| x) d = 0 ↔ d = 0 ∧ ∀ x ∈ xs, x = 0 := by
  induction xs generalizing d with
  | nil => simp
  | cons x xs ih =>
    have h : d ||| x = 0 ↔ d = 0 ∧ x = 0 := BitVec.or_eq_zero_iff
    rw [List.foldl_cons, ih, List.forall_mem_cons, h, and_assoc]

theorem limbwiseXor_all_zero_iff {a b : Value} (h : a.length = b.length) :
    (∀ x ∈ limbwiseXor a b, x = 0) ↔ a = b := by
  induction a generalizing b with
  | nil =>
    obtain rfl := List.length_eq_zero_iff.mp h.symm
    simp [limbwiseXor]
  | cons x xs ih =>
    match b, h with
    | y :: ys, h =>
      have := ih (b := ys) (by simpa using h)
      have hx : x ^^^ y = 0 ↔ x = y := BitVec.xor_eq_zero_iff
      simp only [limbwiseXor, List.zipWith_cons_cons, List.forall_mem_cons, List.cons.injEq] at this ⊢
      rw [this, hx]

/-- CMPEQ's bit says that the two values are equal (R59). -/
theorem eqFlag_eq {a b : Value} (h : a.length = b.length) : eqFlag a b = decide (val a = val b) := by
  rw [eqFlag, isZero, Bool.eq_iff_iff, beq_iff_eq, decide_eq_true_iff, differenceWord, foldl_or_eq_zero_iff,
    limbwiseXor_all_zero_iff h]
  exact ⟨fun e => by rw [e.2], fun e => ⟨rfl, val_injective h e⟩⟩

theorem lteFlag_eq {a b : Value} (h : a.length = b.length) : lteFlag a b = decide (val a ≤ val b) := by
  rw [lteFlag, ltFlag_eq h, eqFlag_eq h, ← Bool.decide_or]
  exact decide_eq_decide.mpr Nat.le_iff_lt_or_eq.symm

theorem gtFlag_eq {a b : Value} (h : a.length = b.length) : gtFlag a b = decide (val b < val a) := ltFlag_eq h.symm

theorem gteFlag_eq {a b : Value} (h : a.length = b.length) : gteFlag a b = decide (val b ≤ val a) := by
  rw [gteFlag, ltFlag_eq h.symm, eqFlag_eq h, ← Bool.decide_or]
  exact decide_eq_decide.mpr (by omega)

/-- R64: exactly one of LT(a, b), EQ(a, b), LT(b, a) is 1. -/
theorem ltFlag_trichotomy {a b : Value} (h : a.length = b.length) :
    (ltFlag a b).toNat + (eqFlag a b).toNat + (ltFlag b a).toNat = 1 := by
  rw [ltFlag_eq h, eqFlag_eq h, ltFlag_eq h.symm]
  rcases Nat.lt_trichotomy (val a) (val b) with hlt | heq | hgt
  · simp [hlt, hlt.ne, hlt.not_gt]
  · simp [heq]
  · simp [hgt, hgt.ne', hgt.not_gt]

/-- R64: LTE(a, b) = 1 - LT(b, a). -/
theorem lteFlag_eq_not_ltFlag {a b : Value} (h : a.length = b.length) : lteFlag a b = !ltFlag b a := by
  rw [lteFlag_eq h, ltFlag_eq h.symm, ← decide_not, decide_eq_decide, not_lt]

/-- R64: GTE(a, b) = 1 - LT(a, b). -/
theorem gteFlag_eq_not_ltFlag {a b : Value} (h : a.length = b.length) : gteFlag a b = !ltFlag a b := by
  rw [gteFlag_eq h, ltFlag_eq h, ← decide_not, decide_eq_decide, not_lt]

end Sys2Proof.Machine
end

