-- ==== Sys2Proof/Laws/Decode.lean ====
section
/-! SUPPORT. The fields of an assembled word, and every decoded word as the word its fields assemble to (R37, R42). -/

namespace Sys2Proof

theorem opcField_toNat (w : CommandWord) : (opcField w).toNat = w.toNat % 32 := by
  simp [opcField, BitVec.extractLsb'_toNat]

theorem rdField_val (w : CommandWord) : (rdField w).val = w.toNat / 2 ^ 5 % 8 := by
  show (w.extractLsb' 5 3).toNat = _
  simp [BitVec.extractLsb'_toNat, Nat.shiftRight_eq_div_pow]

theorem rs1Field_val (w : CommandWord) : (rs1Field w).val = w.toNat / 2 ^ 8 % 8 := by
  show (w.extractLsb' 8 3).toNat = _
  simp [BitVec.extractLsb'_toNat, Nat.shiftRight_eq_div_pow]

theorem rs2Field_val (w : CommandWord) : (rs2Field w).val = w.toNat / 2 ^ 11 % 8 := by
  show (w.extractLsb' 11 3).toNat = _
  simp [BitVec.extractLsb'_toNat, Nat.shiftRight_eq_div_pow]

theorem rd2Field_val (w : CommandWord) : (rd2Field w).val = w.toNat / 2 ^ 14 % 8 := by
  show (w.extractLsb' 14 3).toNat = _
  simp [BitVec.extractLsb'_toNat, Nat.shiftRight_eq_div_pow]

theorem rsvField_toNat (w : CommandWord) : (rsvField w).toNat = w.toNat / 2 ^ 17 := by
  have := w.isLt
  simp only [rsvField, BitVec.extractLsb'_toNat, Nat.shiftRight_eq_div_pow]
  omega

theorem rsvField_eq_zero_iff (w : CommandWord) : rsvField w = 0 ↔ w.toNat / 2 ^ 17 = 0 := by
  rw [← rsvField_toNat]
  exact ⟨fun h => by rw [h]; rfl, fun h => BitVec.eq_of_toNat_eq (by rw [h]; rfl)⟩

theorem assembleFields_toNat {opc : Nat} (h : opc < 32) (rd rs1 rs2 rd2 : Reg) :
    (assembleFields opc rd rs1 rs2 rd2).toNat =
      opc + rd.val * 2 ^ 5 + rs1.val * 2 ^ 8 + rs2.val * 2 ^ 11 + rd2.val * 2 ^ 14 := by
  rw [assembleFields, BitVec.toNat_ofNat]
  omega

section Fields
variable {opc : Nat} (h : opc < 32) (rd rs1 rs2 rd2 : Reg)
include h

theorem opcField_assembleFields : (opcField (assembleFields opc rd rs1 rs2 rd2)).toNat = opc := by
  rw [opcField_toNat, assembleFields_toNat h]; omega
theorem rdField_assembleFields : rdField (assembleFields opc rd rs1 rs2 rd2) = rd := by
  apply Fin.ext; rw [rdField_val, assembleFields_toNat h]; omega
theorem rs1Field_assembleFields : rs1Field (assembleFields opc rd rs1 rs2 rd2) = rs1 := by
  apply Fin.ext; rw [rs1Field_val, assembleFields_toNat h]; omega
theorem rs2Field_assembleFields : rs2Field (assembleFields opc rd rs1 rs2 rd2) = rs2 := by
  apply Fin.ext; rw [rs2Field_val, assembleFields_toNat h]; omega
theorem rd2Field_assembleFields : rd2Field (assembleFields opc rd rs1 rs2 rd2) = rd2 := by
  apply Fin.ext; rw [rd2Field_val, assembleFields_toNat h]; omega
theorem rsvField_assembleFields : rsvField (assembleFields opc rd rs1 rs2 rd2) = 0 := by
  rw [rsvField_eq_zero_iff, assembleFields_toNat h]; omega

end Fields

/-- A word with RSV = 0 is what its own fields assemble to (R37). -/
theorem assembleFields_fields {w : CommandWord} (h : rsvField w = 0) :
    assembleFields (opcField w).toNat (rdField w) (rs1Field w) (rs2Field w) (rd2Field w) = w := by
  apply BitVec.eq_of_toNat_eq
  have hr := (rsvField_eq_zero_iff w).mp h
  rw [assembleFields_toNat (opcField w).isLt, opcField_toNat, rdField_val, rs1Field_val, rs2Field_val, rd2Field_val]
  omega

end Sys2Proof
end

