-- ==== Sys2Proof/Laws/Multiply.lean ====
section
/-! SUPPORT. The column multiplier is exact: no carry is lost, and the 2N output limbs are the product (R69 to R71). -/

namespace Sys2Proof.Machine

/-- Limb i of a value as a number. -/
def limbNat (a : Value) (i : Nat) : Nat := (a.getD i 0).toNat

/-- The sum of the limb products of column k. -/
def columnSum (n : Nat) (a b : Value) (k : Nat) : Nat :=
  ((columnIndices n k).map (fun i => limbNat a i * limbNat b (k - i))).sum

theorem limbNat_le (a : Value) (i : Nat) : limbNat a i ≤ 2 ^ 64 - 1 := Nat.le_sub_one_of_lt (a.getD i 0).isLt

theorem mem_columnIndices {n k i : Nat} (hn : 0 < n) : i ∈ columnIndices n k ↔ i < n ∧ i ≤ k ∧ k < i + n := by
  simp only [columnIndices, List.mem_map, List.mem_range]
  constructor
  · rintro ⟨j, hj, rfl⟩; omega
  · rintro ⟨h1, h2, h3⟩
    exact ⟨i - (k + 1 - n), by omega, by omega⟩

theorem length_columnIndices_le (n k : Nat) : (columnIndices n k).length ≤ n := by
  simp only [columnIndices, List.length_map, List.length_range]
  omega

theorem nodup_columnIndices (n k : Nat) : (columnIndices n k).Nodup :=
  List.Nodup.map (fun _ _ h => Nat.add_left_cancel h) List.nodup_range

theorem columnSum_le (n : Nat) (a b : Value) (k : Nat) : columnSum n a b k ≤ n * ((2 ^ 64 - 1) * (2 ^ 64 - 1)) := by
  have h : ∀ x ∈ (columnIndices n k).map (fun i => limbNat a i * limbNat b (k - i)),
      x ≤ (2 ^ 64 - 1) * (2 ^ 64 - 1) := by
    simp only [List.mem_map]
    rintro x ⟨i, -, rfl⟩
    exact Nat.mul_le_mul (limbNat_le _ _) (limbNat_le _ _)
  refine Nat.le_trans (List.sum_le_card_nsmul _ _ h) ?_
  rw [List.length_map, smul_eq_mul]
  exact Nat.mul_le_mul_right _ (length_columnIndices_le n k)

/-- Adding a list of products loses nothing while the sum stays below 2^192 (R52). -/
theorem foldl_multiplyAccumulate3_toNat (a b : Value) (k : Nat) (is : List Nat) (acc : Accumulator)
    (hk : ∀ i ∈ is, i ≤ k)
    (h : acc.toNat + (is.map (fun i => limbNat a i * limbNat b (k - i))).sum < 2 ^ 192) :
    (is.foldl (fun acc (i : Nat) => multiplyAccumulate3 acc (limbAt a i) (limbAt b ((k : Int) - i))) acc).toNat =
      acc.toNat + (is.map (fun i => limbNat a i * limbNat b (k - i))).sum := by
  induction is generalizing acc with
  | nil => simp
  | cons i is ih =>
    rw [List.map_cons, List.sum_cons] at h ⊢
    have hik : i ≤ k := hk i (by simp)
    have hb : limbAt b ((k : Int) - i) = b.getD (k - i) 0 := by
      rw [← limbAt_natCast]; congr 1; omega
    have h1 : (multiplyAccumulate3 acc (limbAt a i) (limbAt b ((k : Int) - i))).toNat =
        acc.toNat + limbNat a i * limbNat b (k - i) := by
      rw [multiplyAccumulate3_toNat, hb, limbAt_natCast]
      exact Nat.mod_eq_of_lt (by simp only [limbNat] at h ⊢; omega)
    rw [List.foldl_cons, ih _ (fun j hj => hk j (by simp [hj])) (by rw [h1]; omega), h1]
    omega

/-- A column's total is what was carried in plus the column's products (R69). -/
theorem addColumn_toNat {n : Nat} (hn : 0 < n) (hn' : n ≤ 16) (a b : Value) (k : Nat) {carry : Accumulator}
    (hc : carry.toNat ≤ n * 2 ^ 64 - n) :
    (addColumn n a b k carry).toNat = carry.toNat + columnSum n a b k := by
  refine foldl_multiplyAccumulate3_toNat a b k _ _ (fun i hi => ((mem_columnIndices hn).mp hi).2.1) ?_
  have := columnSum_le n a b k
  rw [columnSum] at this
  omega

/-- The carry out of a column obeys the bound the carry into it obeys (R70). -/
theorem carryOut_le {n : Nat} (hn : 0 < n) (hn' : n ≤ 16) (a b : Value) (k : Nat) {carry : Accumulator}
    (hc : carry.toNat ≤ n * 2 ^ 64 - n) : (addColumn n a b k carry).carryOut.toNat ≤ n * 2 ^ 64 - n := by
  have h1 := addColumn_toNat hn hn' a b k hc
  have h2 := Accumulator.toNat_carryOut (addColumn n a b k carry)
  have h3 := columnSum_le n a b k
  omega

@[simp] theorem length_columnTotals (n : Nat) (a b : Value) (cols k : Nat) (carry : Accumulator) :
    (columnTotals n a b cols k carry).length = cols := by
  induction cols generalizing k carry with
  | zero => rfl
  | succ cols ih => simp [columnTotals, ih]

@[simp] theorem length_mulColumns (n : Nat) (a b : Value) (cols : Nat) : (mulColumns n a b cols).length = cols := by
  simp [mulColumns]

/-- The carry left after the last of a list of columns. -/
def lastCarry (carry : Accumulator) (totals : List Accumulator) : Accumulator :=
  (totals.map Accumulator.carryOut).getLastD carry

/-- The output limbs and the last carry together are the carry in plus every column's sum at its place (R69). -/
theorem columnTotals_exact {n : Nat} (hn : 0 < n) (hn' : n ≤ 16) (a b : Value) (cols k : Nat) {carry : Accumulator}
    (hc : carry.toNat ≤ n * 2 ^ 64 - n) :
    val ((columnTotals n a b cols k carry).map (fun total => total.low)) +
        2 ^ (64 * cols) * (lastCarry carry (columnTotals n a b cols k carry)).toNat =
      carry.toNat + ∑ j ∈ Finset.range cols, 2 ^ (64 * j) * columnSum n a b (k + j) := by
  induction cols generalizing k carry with
  | zero => simp [columnTotals, lastCarry]
  | succ cols ih =>
    have h1 := addColumn_toNat hn hn' a b k hc
    have h2 := Accumulator.toNat_carryOut (addColumn n a b k carry)
    have h3 := ih (k + 1) (carryOut_le hn hn' a b k hc)
    have hlast : lastCarry carry (columnTotals n a b (cols + 1) k carry) =
        lastCarry (addColumn n a b k carry).carryOut
          (columnTotals n a b cols (k + 1) (addColumn n a b k carry).carryOut) := by
      simp only [lastCarry, columnTotals, List.map_cons, List.getLastD_cons]
    have hsum : ∑ j ∈ Finset.range (cols + 1), 2 ^ (64 * j) * columnSum n a b (k + j) =
        columnSum n a b k + 2 ^ 64 * ∑ j ∈ Finset.range cols, 2 ^ (64 * j) * columnSum n a b (k + 1 + j) := by
      have hj : ∀ j ∈ Finset.range cols, 2 ^ (64 * (j + 1)) * columnSum n a b (k + (j + 1)) =
          2 ^ 64 * (2 ^ (64 * j) * columnSum n a b (k + 1 + j)) := fun j _ => by
        rw [two_pow_limbs_succ, Nat.mul_assoc, Nat.add_right_comm, Nat.add_assoc]
      rw [Finset.sum_range_succ', Finset.sum_congr rfl hj, ← Finset.mul_sum, Nat.mul_zero, Nat.pow_zero, Nat.one_mul,
        Nat.add_comm, Nat.add_zero]
    rw [hlast, hsum, two_pow_limbs_succ]
    simp only [columnTotals, List.map_cons, val_cons]
    linear_combination h1 - h2 + 2 ^ 64 * h3

/-- A value as the sum of its limbs at their places (R9). -/
theorem val_eq_sum (a : Value) : val a = ∑ i ∈ Finset.range a.length, 2 ^ (64 * i) * limbNat a i := by
  induction a with
  | nil => rfl
  | cons x xs ih =>
    have hi : ∀ i ∈ Finset.range xs.length, 2 ^ (64 * (i + 1)) * limbNat (x :: xs) (i + 1) =
        2 ^ 64 * (2 ^ (64 * i) * limbNat xs i) := fun i _ => by
      rw [two_pow_limbs_succ, Nat.mul_assoc]
      rfl
    have h0 : limbNat (x :: xs) 0 = x.toNat := rfl
    rw [List.length_cons, Finset.sum_range_succ', Finset.sum_congr rfl hi, ← Finset.mul_sum, Nat.mul_zero, Nat.pow_zero,
      Nat.one_mul, h0, Nat.add_comm, val_cons, ih]

theorem columnSum_eq {n : Nat} (hn : 0 < n) (a b : Value) (k : Nat) :
    columnSum n a b k =
      ∑ i ∈ Finset.range n, if i ≤ k ∧ k < i + n then limbNat a i * limbNat b (k - i) else 0 := by
  rw [← Finset.sum_filter, columnSum, ← List.sum_toFinset _ (nodup_columnIndices n k)]
  refine Finset.sum_congr ?_ (fun _ _ => rfl)
  ext i
  rw [List.mem_toFinset, mem_columnIndices hn, Finset.mem_filter, Finset.mem_range]

/-- The 2N column sums at their places are the product (R69). -/
theorem sum_columns_eq_product {n : Nat} (hn : 0 < n) {a b : Value} (ha : a.length = n) (hb : b.length = n) :
    ∑ k ∈ Finset.range (2 * n), 2 ^ (64 * k) * columnSum n a b k = val a * val b := by
  rw [val_eq_sum a, val_eq_sum b, ha, hb, Finset.sum_mul_sum]
  simp only [columnSum_eq hn, Finset.mul_sum]
  rw [Finset.sum_comm]
  refine Finset.sum_congr rfl (fun i hi => ?_)
  have hi := Finset.mem_range.mp hi
  have hsplit : ∑ k ∈ Finset.range (2 * n),
      2 ^ (64 * k) * (if i ≤ k ∧ k < i + n then limbNat a i * limbNat b (k - i) else 0) =
      ∑ k ∈ Finset.Ico i (i + n), 2 ^ (64 * k) * (limbNat a i * limbNat b (k - i)) := by
    simp only [mul_ite, mul_zero]
    rw [← Finset.sum_filter]
    refine Finset.sum_congr ?_ (fun _ _ => rfl)
    ext k
    simp only [Finset.mem_filter, Finset.mem_range, Finset.mem_Ico]
    omega
  rw [hsplit, Finset.sum_Ico_eq_sum_range, Nat.add_sub_cancel_left]
  refine Finset.sum_congr rfl (fun j _ => ?_)
  rw [Nat.add_sub_cancel_left, Nat.mul_add, Nat.pow_add]
  ring

theorem product_lt {n : Nat} {a b : Value} (ha : a.length = n) (hb : b.length = n) :
    val a * val b < 2 ^ (64 * (2 * n)) := by
  have h := Nat.mul_lt_mul'' (val_lt a) (val_lt b)
  rw [ha, hb, ← Nat.pow_add] at h
  rwa [show 64 * (2 * n) = 64 * n + 64 * n by omega]

/-- For K = 2N the accumulator ends at 0 and the output is the exact product (R69). -/
theorem mulColumns_exact {n : Nat} (hn : 0 < n) (hn' : n ≤ 16) {a b : Value} (ha : a.length = n) (hb : b.length = n) :
    (lastCarry Accumulator.zero (columnTotals n a b (2 * n) 0 Accumulator.zero)).toNat = 0 ∧
      val (mulColumns n a b (2 * n)) = val a * val b := by
  have h := columnTotals_exact hn hn' a b (2 * n) 0 (carry := Accumulator.zero) (by simp)
  simp only [Nat.zero_add, Accumulator.toNat_zero, sum_columns_eq_product hn ha hb] at h
  have hlt := product_lt ha hb
  rw [← h] at hlt
  have hz : (lastCarry Accumulator.zero (columnTotals n a b (2 * n) 0 Accumulator.zero)).toNat = 0 := by
    by_contra hne
    have := Nat.le_mul_of_pos_right (2 ^ (64 * (2 * n))) (Nat.pos_of_ne_zero hne)
    omega
  rw [hz] at h
  exact ⟨hz, by simpa [mulColumns] using h⟩

theorem count_pos (n : LimbCount) : 0 < n.count := by cases n <;> decide
theorem count_le (n : LimbCount) : n.count ≤ 16 := by cases n <;> decide

@[simp] theorem length_lowHalf (n : Nat) (a b : Value) : (lowHalf n (mulColumns n a b (2 * n))).length = n := by
  simp [lowHalf]; omega
@[simp] theorem length_highHalf (n : Nat) (a b : Value) : (highHalf n (mulColumns n a b (2 * n))).length = n := by
  simp [highHalf]; omega

/-- A double-width value is its low half and its high half (R73). -/
theorem val_halves (n : Nat) (p : Value) (h : n ≤ p.length) :
    val p = val (lowHalf n p) + 2 ^ (64 * n) * val (highHalf n p) := by
  have := val_append (p.take n) (p.drop n)
  rw [List.take_append_drop, List.length_take, Nat.min_eq_left h] at this
  exact this

/-- The two halves as numbers: the product modulo 2^W and the product divided by 2^W (R72, R73). -/
theorem val_lowHalf_highHalf {n : Nat} (hn : 0 < n) (hn' : n ≤ 16) {a b : Value} (ha : a.length = n)
    (hb : b.length = n) :
    val (lowHalf n (mulColumns n a b (2 * n))) = val a * val b % 2 ^ (64 * n) ∧
      val (highHalf n (mulColumns n a b (2 * n))) = val a * val b / 2 ^ (64 * n) := by
  have h := val_halves n (mulColumns n a b (2 * n)) (by simp; omega)
  have hl := val_lt (lowHalf n (mulColumns n a b (2 * n)))
  rw [length_lowHalf] at hl
  rw [(mulColumns_exact hn hn' ha hb).2] at h
  have hpos : 0 < 2 ^ (64 * n) := Nat.pow_pos (by decide)
  rw [h, Nat.add_mul_mod_self_left, Nat.mod_eq_of_lt hl, Nat.add_mul_div_left _ _ hpos, Nat.div_eq_of_lt hl]
  simp

/-- MUL's overflow bit says that the product does not fit in W bits (R71). -/
theorem overflowFlag_eq {n : Nat} (hn : 0 < n) (hn' : n ≤ 16) {a b : Value} (ha : a.length = n) (hb : b.length = n) :
    overflowFlag n (mulColumns n a b (2 * n)) = decide (2 ^ (64 * n) ≤ val a * val b) := by
  have h := (val_lowHalf_highHalf hn hn' ha hb).2
  have hany : overflowFlag n (mulColumns n a b (2 * n)) =
      decide (val (highHalf n (mulColumns n a b (2 * n))) ≠ 0) := by
    rw [Bool.eq_iff_iff, overflowFlag, List.any_eq_true, decide_eq_true_iff, Ne, val_eq_zero_iff]
    simp
  rw [hany, h]
  refine decide_eq_decide.mpr ?_
  rw [Ne, Nat.div_eq_zero_iff]
  have hpos : 2 ^ (64 * n) ≠ 0 := Nat.ne_of_gt (Nat.pow_pos (by decide))
  omega

end Sys2Proof.Machine
end

