-- ==== Sys2Proof/Laws/PerInstr.lean ====
section
/-! SUPPORT. Family RoundTrip: the decoder reads each well-formed command back from its own word (R37, R40 to R42). -/

namespace Sys2Proof.Laws.RoundTrip

/-- The word of a well-formed command decodes to it. -/
def Statement (i : Instr) : Prop := i.wellFormed = true → decode (encode i) = .ok i

theorem threeRegister {mk : Reg → Reg → Reg → Instr} {opc : Nat} (h : opc < 32) (rd rs1 rs2 : Reg) :
    decodeThreeRegister mk (assembleFields opc rd rs1 rs2 0) = .ok (mk rd rs1 rs2) := by
  rw [decodeThreeRegister, rd2Field_assembleFields h, if_pos rfl, rdField_assembleFields h, rs1Field_assembleFields h,
    rs2Field_assembleFields h]

theorem compare {mk : Reg → Reg → Instr} {opc : Nat} (h : opc < 32) (rs1 rs2 : Reg) :
    decodeCompare mk (assembleFields opc 0 rs1 rs2 0) = .ok (mk rs1 rs2) := by
  rw [decodeCompare, rd2Field_assembleFields h, rdField_assembleFields h, if_pos ⟨rfl, rfl⟩, rs1Field_assembleFields h,
    rs2Field_assembleFields h]

section Words
variable (rd rd2 rs1 rs2 : Reg)

/-- A word with RSV = 0 goes to its opcode's row of the map. -/
theorem decode_row {w : CommandWord} {opc : Nat} (h : opc < 32) (hw : w = assembleFields opc rd rs1 rs2 rd2) :
    rsvField w = 0 ∧ (opcField w).toNat = opc := by
  subst hw
  exact ⟨rsvField_assembleFields h _ _ _ _, opcField_assembleFields h _ _ _ _⟩

theorem add : Statement (.add rd rs1 rs2) := fun _ => by
  obtain ⟨h1, h2⟩ := decode_row rd 0 rs1 rs2 (w := encode (.add rd rs1 rs2)) (opc := 1) (by decide) rfl
  rw [decode, h1, if_neg (by decide), h2]
  exact threeRegister (by decide) rd rs1 rs2
theorem sub : Statement (.sub rd rs1 rs2) := fun _ => by
  obtain ⟨h1, h2⟩ := decode_row rd 0 rs1 rs2 (w := encode (.sub rd rs1 rs2)) (opc := 2) (by decide) rfl
  rw [decode, h1, if_neg (by decide), h2]
  exact threeRegister (by decide) rd rs1 rs2
theorem cmpeq : Statement (.cmpeq rs1 rs2) := fun _ => by
  obtain ⟨h1, h2⟩ := decode_row 0 0 rs1 rs2 (w := encode (.cmpeq rs1 rs2)) (opc := 3) (by decide) rfl
  rw [decode, h1, if_neg (by decide), h2]
  exact compare (by decide) rs1 rs2
theorem cmplt : Statement (.cmplt rs1 rs2) := fun _ => by
  obtain ⟨h1, h2⟩ := decode_row 0 0 rs1 rs2 (w := encode (.cmplt rs1 rs2)) (opc := 4) (by decide) rfl
  rw [decode, h1, if_neg (by decide), h2]
  exact compare (by decide) rs1 rs2
theorem cmplte : Statement (.cmplte rs1 rs2) := fun _ => by
  obtain ⟨h1, h2⟩ := decode_row 0 0 rs1 rs2 (w := encode (.cmplte rs1 rs2)) (opc := 5) (by decide) rfl
  rw [decode, h1, if_neg (by decide), h2]
  exact compare (by decide) rs1 rs2
theorem cmpgt : Statement (.cmpgt rs1 rs2) := fun _ => by
  obtain ⟨h1, h2⟩ := decode_row 0 0 rs1 rs2 (w := encode (.cmpgt rs1 rs2)) (opc := 6) (by decide) rfl
  rw [decode, h1, if_neg (by decide), h2]
  exact compare (by decide) rs1 rs2
theorem cmpgte : Statement (.cmpgte rs1 rs2) := fun _ => by
  obtain ⟨h1, h2⟩ := decode_row 0 0 rs1 rs2 (w := encode (.cmpgte rs1 rs2)) (opc := 7) (by decide) rfl
  rw [decode, h1, if_neg (by decide), h2]
  exact compare (by decide) rs1 rs2
theorem and : Statement (.and rd rs1 rs2) := fun _ => by
  obtain ⟨h1, h2⟩ := decode_row rd 0 rs1 rs2 (w := encode (.and rd rs1 rs2)) (opc := 8) (by decide) rfl
  rw [decode, h1, if_neg (by decide), h2]
  exact threeRegister (by decide) rd rs1 rs2
theorem or : Statement (.or rd rs1 rs2) := fun _ => by
  obtain ⟨h1, h2⟩ := decode_row rd 0 rs1 rs2 (w := encode (.or rd rs1 rs2)) (opc := 9) (by decide) rfl
  rw [decode, h1, if_neg (by decide), h2]
  exact threeRegister (by decide) rd rs1 rs2
theorem xor : Statement (.xor rd rs1 rs2) := fun _ => by
  obtain ⟨h1, h2⟩ := decode_row rd 0 rs1 rs2 (w := encode (.xor rd rs1 rs2)) (opc := 10) (by decide) rfl
  rw [decode, h1, if_neg (by decide), h2]
  exact threeRegister (by decide) rd rs1 rs2
theorem not : Statement (.not rd rs1) := fun _ => by
  obtain ⟨h1, h2⟩ := decode_row rd 0 rs1 0 (w := encode (.not rd rs1)) (opc := 11) (by decide) rfl
  have h : (11 : Nat) < 32 := by decide
  rw [decode, h1, if_neg (by decide), h2]
  show decodeOneSource .not (assembleFields 11 rd rs1 0 0) = _
  rw [decodeOneSource, rd2Field_assembleFields h, rs2Field_assembleFields h, if_pos ⟨rfl, rfl⟩, rdField_assembleFields h,
    rs1Field_assembleFields h]
theorem mul : Statement (.mul rd rs1 rs2) := fun _ => by
  obtain ⟨h1, h2⟩ := decode_row rd 0 rs1 rs2 (w := encode (.mul rd rs1 rs2)) (opc := 12) (by decide) rfl
  rw [decode, h1, if_neg (by decide), h2]
  exact threeRegister (by decide) rd rs1 rs2
theorem mulf : Statement (.mulf rd rd2 rs1 rs2) := fun hw => by
  obtain ⟨h1, h2⟩ := decode_row rd rd2 rs1 rs2 (w := encode (.mulf rd rd2 rs1 rs2)) (opc := 13) (by decide) rfl
  have h : (13 : Nat) < 32 := by decide
  rw [decode, h1, if_neg (by decide), h2]
  show decodeTwoDestination .mulf (assembleFields 13 rd rs1 rs2 rd2) = _
  rw [decodeTwoDestination, rdField_assembleFields h, rd2Field_assembleFields h, if_neg (bne_iff_ne.mp hw),
    rs1Field_assembleFields h, rs2Field_assembleFields h]
theorem shl : Statement (.shl rd rs1 rs2) := fun _ => by
  obtain ⟨h1, h2⟩ := decode_row rd 0 rs1 rs2 (w := encode (.shl rd rs1 rs2)) (opc := 14) (by decide) rfl
  rw [decode, h1, if_neg (by decide), h2]
  exact threeRegister (by decide) rd rs1 rs2
theorem shr : Statement (.shr rd rs1 rs2) := fun _ => by
  obtain ⟨h1, h2⟩ := decode_row rd 0 rs1 rs2 (w := encode (.shr rd rs1 rs2)) (opc := 15) (by decide) rfl
  rw [decode, h1, if_neg (by decide), h2]
  exact threeRegister (by decide) rd rs1 rs2

end Words

end Sys2Proof.Laws.RoundTrip
end

