-- ==== Sys2Proof/Laws/Shift.lean ====
section
/-! SUPPORT. What the shifter computes: the masked amount, and each shift as a number (R75 to R79). -/

namespace Sys2Proof.Machine

/-- The masked amount is s mod W, W being a power of two (R75). -/
theorem maskedAmount_toNat (n : LimbCount) (amount : Value) :
    (maskedAmount n amount).toNat = (limbAt amount 0).toNat % n.width := by
  have h (k : Nat) (hk : k < 64) :
      (limbAt amount 0 &&& BitVec.ofNat 64 (2 ^ k - 1)).toNat = (limbAt amount 0).toNat % 2 ^ k := by
    have h2 : 2 ^ k - 1 < 2 ^ 64 := Nat.lt_of_le_of_lt (Nat.sub_le _ _) (Nat.pow_lt_pow_right (by decide) hk)
    rw [BitVec.toNat_and, BitVec.toNat_ofNat, Nat.mod_eq_of_lt h2, Nat.and_two_pow_sub_one_eq_mod]
  cases n
  · exact h 7 (by decide)
  · exact h 8 (by decide)
  · exact h 9 (by decide)
  · exact h 10 (by decide)

theorem limbJump_eq (sm : Limb) : limbJump sm = sm.toNat / 64 := by
  rw [limbJump, BitVec.toNat_ushiftRight, Nat.shiftRight_eq_div_pow]

theorem bitOff_eq (sm : Limb) : bitOff sm = sm.toNat % 64 := by
  rw [bitOff, BitVec.toNat_and]
  exact Nat.and_two_pow_sub_one_eq_mod _ 6

/-- Bit j of output limb i of a right shift is the value's bit 64·i + j + sm (R77). -/
theorem getLsbD_shrLimb (a : Value) (sm : Limb) (i : Nat) {j : Nat} (hj : j < 64) :
    (shrLimb a sm i).getLsbD j = (val a).testBit (64 * i + j + sm.toNat) := by
  have hJ := limbJump_eq sm
  have hB := bitOff_eq sm
  have hlow : limbAt a (i + limbJump sm) = a.getD (i + limbJump sm) 0 := limbAt_natCast a (i + limbJump sm)
  have hhigh : limbAt a (i + limbJump sm + 1) = a.getD (i + limbJump sm + 1) 0 := limbAt_natCast a (i + limbJump sm + 1)
  rw [shrLimb, hlow, hhigh, val_testBit, BitVec.getLsbD_or, BitVec.getLsbD_ushiftRight]
  rcases Nat.lt_or_ge (bitOff sm + j) 64 with h | h
  · rw [show (64 * i + j + sm.toNat) / 64 = i + limbJump sm by omega,
      show (64 * i + j + sm.toNat) % 64 = bitOff sm + j by omega]
    split
    · simp
    · rw [BitVec.getLsbD_shiftLeft, decide_eq_true (show j < 64 - bitOff sm by omega)]
      simp
  · rw [show (64 * i + j + sm.toNat) / 64 = i + limbJump sm + 1 by omega,
      show (64 * i + j + sm.toNat) % 64 = j - (64 - bitOff sm) by omega,
      BitVec.getLsbD_of_ge _ _ h, if_neg (by omega), BitVec.getLsbD_shiftLeft, decide_eq_true hj,
      decide_eq_false (show ¬ j < 64 - bitOff sm by omega)]
    simp

/-- Bit j of output limb i of a left shift is the value's bit 64·i + j - sm, and 0 below sm (R78). -/
theorem getLsbD_shlLimb (a : Value) (sm : Limb) (i : Nat) {j : Nat} (hj : j < 64) :
    (shlLimb a sm i).getLsbD j = (decide (sm.toNat ≤ 64 * i + j) && (val a).testBit (64 * i + j - sm.toNat)) := by
  have hJ := limbJump_eq sm
  have hB := bitOff_eq sm
  have hat (k : Nat) : limbAt a ((i : Int) - limbJump sm - k) =
      if limbJump sm + k ≤ i then a.getD (i - limbJump sm - k) 0 else 0 := by
    split
    · next h =>
      rw [← limbAt_natCast]
      congr 1
      omega
    · next h => exact limbAt_of_neg a (by omega)
  have h0 := hat 0
  have h1 := hat 1
  simp only [Nat.cast_zero, sub_zero, Nat.add_zero, Nat.sub_zero, Nat.cast_one] at h0 h1
  rw [shlLimb, h0, h1, val_testBit, BitVec.getLsbD_or, BitVec.getLsbD_shiftLeft, decide_eq_true hj]
  rcases Nat.lt_or_ge j (bitOff sm) with h | h
  · rw [decide_eq_true h, if_neg (show ¬ bitOff sm = 0 by omega), BitVec.getLsbD_ushiftRight]
    by_cases hs : sm.toNat ≤ 64 * i + j
    · rw [decide_eq_true hs, if_pos (show limbJump sm + 1 ≤ i by omega),
        show (64 * i + j - sm.toNat) / 64 = i - limbJump sm - 1 by omega,
        show (64 * i + j - sm.toNat) % 64 = 64 - bitOff sm + j by omega]
      simp
    · rw [decide_eq_false hs, if_neg (show ¬ limbJump sm + 1 ≤ i by omega)]
      simp
  · rw [decide_eq_false (show ¬ j < bitOff sm by omega)]
    have hlow : (if bitOff sm = 0 then (0 : Limb) else
        (if limbJump sm + 1 ≤ i then a.getD (i - limbJump sm - 1) 0 else 0) >>> (64 - bitOff sm)).getLsbD j = false := by
      split
      · simp
      · rw [BitVec.getLsbD_ushiftRight, BitVec.getLsbD_of_ge _ _ (by omega)]
    rw [hlow]
    by_cases hs : sm.toNat ≤ 64 * i + j
    · rw [decide_eq_true hs, if_pos (by omega), show (64 * i + j - sm.toNat) / 64 = i - limbJump sm by omega,
        show (64 * i + j - sm.toNat) % 64 = j - bitOff sm by omega]
      simp
    · rw [decide_eq_false hs, if_neg (by omega)]
      simp

@[simp] theorem length_shiftRight (n : Nat) (a : Value) (sm : Limb) : (shiftRight n a sm).length = n := by
  simp [shiftRight]
@[simp] theorem length_shiftLeft (n : Nat) (a : Value) (sm : Limb) : (shiftLeft n a sm).length = n := by
  simp [shiftLeft]

/-- SHR's result is val(a) div 2^sm (R77). -/
theorem val_shiftRight (a : Value) (sm : Limb) : val (shiftRight a.length a sm) = val a / 2 ^ sm.toNat := by
  apply Nat.eq_of_testBit_eq
  intro p
  rw [val_testBit, shiftRight, getD_map_range, Nat.testBit_div_two_pow]
  split
  · rw [getLsbD_shrLimb _ _ _ (Nat.mod_lt _ (by decide)), Nat.div_add_mod, Nat.add_comm]
  · next h =>
    have h1 : a.length ≤ (sm.toNat + p) / 64 :=
      Nat.le_trans (Nat.le_of_not_lt h) (Nat.div_le_div_right (Nat.le_add_left _ _))
    rw [val_testBit, Nat.add_comm p, List.getD_eq_default _ _ h1]
    simp

/-- SHL's result is val(a)·2^sm mod 2^W (R78). -/
theorem val_shiftLeft (a : Value) (sm : Limb) :
    val (shiftLeft a.length a sm) = val a * 2 ^ sm.toNat % 2 ^ (64 * a.length) := by
  apply Nat.eq_of_testBit_eq
  intro p
  rw [val_testBit, shiftLeft, getD_map_range, Nat.testBit_mod_two_pow, Nat.testBit_mul_two_pow]
  split
  · next h =>
    rw [getLsbD_shlLimb _ _ _ (Nat.mod_lt _ (by decide)), Nat.div_add_mod,
      decide_eq_true (show p < 64 * a.length by omega), Bool.true_and]
  · next h =>
    rw [decide_eq_false (show ¬ p < 64 * a.length by omega)]
    simp

end Sys2Proof.Machine
end

