-- ==== Sys2Proof/Laws/State.lean ====
section
/-! SUPPORT. One lemma per field per update of the state, and the register file's read-over-write laws. -/

namespace Sys2Proof.Machine

@[simp] theorem State.writeReg_limbCount (s : State) (r : Reg) (v : Value) : (s.writeReg r v).limbCount = s.limbCount := rfl
@[simp] theorem State.writeReg_regs (s : State) (r : Reg) (v : Value) : (s.writeReg r v).regs = s.regs.set r v := rfl
@[simp] theorem State.writeReg_written (s : State) (r : Reg) (v : Value) : (s.writeReg r v).written = s.written.set r true := rfl
@[simp] theorem State.writeReg_flag (s : State) (r : Reg) (v : Value) : (s.writeReg r v).flag = s.flag := rfl
@[simp] theorem State.writeReg_ill (s : State) (r : Reg) (v : Value) : (s.writeReg r v).ill = s.ill := rfl
@[simp] theorem State.writeReg_cmdIndex (s : State) (r : Reg) (v : Value) : (s.writeReg r v).cmdIndex = s.cmdIndex := rfl
@[simp] theorem State.writeReg_pending (s : State) (r : Reg) (v : Value) : (s.writeReg r v).pending = s.pending := rfl
@[simp] theorem State.writeReg_replies (s : State) (r : Reg) (v : Value) : (s.writeReg r v).replies = s.replies := rfl
@[simp] theorem State.writeReg_epoch (s : State) (r : Reg) (v : Value) : (s.writeReg r v).epoch = s.epoch := rfl

@[simp] theorem State.setFlag_limbCount (s : State) (b : Bool) : (s.setFlag b).limbCount = s.limbCount := rfl
@[simp] theorem State.setFlag_regs (s : State) (b : Bool) : (s.setFlag b).regs = s.regs := rfl
@[simp] theorem State.setFlag_written (s : State) (b : Bool) : (s.setFlag b).written = s.written := rfl
@[simp] theorem State.setFlag_flag (s : State) (b : Bool) : (s.setFlag b).flag = b := rfl
@[simp] theorem State.setFlag_ill (s : State) (b : Bool) : (s.setFlag b).ill = s.ill := rfl
@[simp] theorem State.setFlag_cmdIndex (s : State) (b : Bool) : (s.setFlag b).cmdIndex = s.cmdIndex := rfl
@[simp] theorem State.setFlag_pending (s : State) (b : Bool) : (s.setFlag b).pending = s.pending := rfl
@[simp] theorem State.setFlag_replies (s : State) (b : Bool) : (s.setFlag b).replies = s.replies := rfl
@[simp] theorem State.setFlag_epoch (s : State) (b : Bool) : (s.setFlag b).epoch = s.epoch := rfl

@[simp] theorem State.takeIllegalCommand_limbCount (s : State) : (s.takeIllegalCommand).limbCount = s.limbCount := rfl
@[simp] theorem State.takeIllegalCommand_regs (s : State) : (s.takeIllegalCommand).regs = s.regs := rfl
@[simp] theorem State.takeIllegalCommand_written (s : State) : (s.takeIllegalCommand).written = s.written := rfl
@[simp] theorem State.takeIllegalCommand_flag (s : State) : (s.takeIllegalCommand).flag = s.flag := rfl
@[simp] theorem State.takeIllegalCommand_ill (s : State) : (s.takeIllegalCommand).ill = true := rfl
@[simp] theorem State.takeIllegalCommand_cmdIndex (s : State) : (s.takeIllegalCommand).cmdIndex = s.cmdIndex := rfl
@[simp] theorem State.takeIllegalCommand_pending (s : State) : (s.takeIllegalCommand).pending = s.pending := rfl
@[simp] theorem State.takeIllegalCommand_replies (s : State) : (s.takeIllegalCommand).replies = s.replies := rfl
@[simp] theorem State.takeIllegalCommand_epoch (s : State) : (s.takeIllegalCommand).epoch = s.epoch := rfl

@[simp] theorem State.reply_limbCount (s : State) (m : PortReply) : (s.reply m).limbCount = s.limbCount := rfl
@[simp] theorem State.reply_regs (s : State) (m : PortReply) : (s.reply m).regs = s.regs := rfl
@[simp] theorem State.reply_written (s : State) (m : PortReply) : (s.reply m).written = s.written := rfl
@[simp] theorem State.reply_flag (s : State) (m : PortReply) : (s.reply m).flag = s.flag := rfl
@[simp] theorem State.reply_ill (s : State) (m : PortReply) : (s.reply m).ill = s.ill := rfl
@[simp] theorem State.reply_cmdIndex (s : State) (m : PortReply) : (s.reply m).cmdIndex = s.cmdIndex := rfl
@[simp] theorem State.reply_pending (s : State) (m : PortReply) : (s.reply m).pending = s.pending := rfl
@[simp] theorem State.reply_replies (s : State) (m : PortReply) : (s.reply m).replies = m :: s.replies := rfl
@[simp] theorem State.reply_epoch (s : State) (m : PortReply) : (s.reply m).epoch = s.epoch := rfl

@[simp] theorem State.nextCommand_limbCount (s : State) : (s.nextCommand).limbCount = s.limbCount := rfl
@[simp] theorem State.nextCommand_regs (s : State) : (s.nextCommand).regs = s.regs := rfl
@[simp] theorem State.nextCommand_written (s : State) : (s.nextCommand).written = s.written := rfl
@[simp] theorem State.nextCommand_flag (s : State) : (s.nextCommand).flag = s.flag := rfl
@[simp] theorem State.nextCommand_ill (s : State) : (s.nextCommand).ill = s.ill := rfl
@[simp] theorem State.nextCommand_cmdIndex (s : State) : (s.nextCommand).cmdIndex = s.cmdIndex + 1 := rfl
@[simp] theorem State.nextCommand_pending (s : State) : (s.nextCommand).pending = s.pending := rfl
@[simp] theorem State.nextCommand_replies (s : State) : (s.nextCommand).replies = s.replies := rfl
@[simp] theorem State.nextCommand_epoch (s : State) : (s.nextCommand).epoch = s.epoch := rfl

@[simp] theorem State.resetBlock_limbCount (s : State) : (s.resetBlock).limbCount = s.limbCount := rfl
@[simp] theorem State.resetBlock_regs (s : State) : (s.resetBlock).regs = unspecifiedRegs s.limbCount (s.epoch + 1) := rfl
@[simp] theorem State.resetBlock_written (s : State) : (s.resetBlock).written = noneWritten := rfl
@[simp] theorem State.resetBlock_flag (s : State) : (s.resetBlock).flag = false := rfl
@[simp] theorem State.resetBlock_ill (s : State) : (s.resetBlock).ill = false := rfl
@[simp] theorem State.resetBlock_cmdIndex (s : State) : (s.resetBlock).cmdIndex = s.cmdIndex := rfl
@[simp] theorem State.resetBlock_pending (s : State) : (s.resetBlock).pending = s.pending := rfl
@[simp] theorem State.resetBlock_replies (s : State) : (s.resetBlock).replies = s.replies := rfl
@[simp] theorem State.resetBlock_epoch (s : State) : (s.resetBlock).epoch = s.epoch + 1 := rfl

@[simp] theorem State.withPending_limbCount (s : State) (ops : List PortOp) : (s.withPending ops).limbCount = s.limbCount := rfl
@[simp] theorem State.withPending_regs (s : State) (ops : List PortOp) : (s.withPending ops).regs = s.regs := rfl
@[simp] theorem State.withPending_written (s : State) (ops : List PortOp) : (s.withPending ops).written = s.written := rfl
@[simp] theorem State.withPending_flag (s : State) (ops : List PortOp) : (s.withPending ops).flag = s.flag := rfl
@[simp] theorem State.withPending_ill (s : State) (ops : List PortOp) : (s.withPending ops).ill = s.ill := rfl
@[simp] theorem State.withPending_cmdIndex (s : State) (ops : List PortOp) : (s.withPending ops).cmdIndex = s.cmdIndex := rfl
@[simp] theorem State.withPending_pending (s : State) (ops : List PortOp) : (s.withPending ops).pending = ops := rfl
@[simp] theorem State.withPending_replies (s : State) (ops : List PortOp) : (s.withPending ops).replies = s.replies := rfl
@[simp] theorem State.withPending_epoch (s : State) (ops : List PortOp) : (s.withPending ops).epoch = s.epoch := rfl

/-! ### Registers and marks -/

@[simp] theorem readReg_writeReg_self (s : State) (r : Reg) (v : Value) : (s.writeReg r v).readReg r = v := by
  simp [State.readReg]

theorem readReg_writeReg_of_ne (s : State) (v : Value) {r r' : Reg} (h : r' ≠ r) :
    (s.writeReg r v).readReg r' = s.readReg r' := by
  simp only [State.readReg, State.writeReg_regs, Fin.getElem_fin]
  exact Vector.getElem_set_ne _ _ (fun e => h (Fin.ext e.symm))

theorem readReg_writeReg (s : State) (r r' : Reg) (v : Value) :
    (s.writeReg r v).readReg r' = if r' = r then v else s.readReg r' := by
  by_cases h : r' = r
  · subst h; simp
  · simp [h, readReg_writeReg_of_ne]

@[simp] theorem isWritten_writeReg_self (s : State) (r : Reg) (v : Value) : (s.writeReg r v).isWritten r = true := by
  simp [State.isWritten]

theorem isWritten_writeReg_of_ne (s : State) (v : Value) {r r' : Reg} (h : r' ≠ r) :
    (s.writeReg r v).isWritten r' = s.isWritten r' := by
  simp only [State.isWritten, State.writeReg_written, Fin.getElem_fin]
  exact Vector.getElem_set_ne _ _ (fun e => h (Fin.ext e.symm))

theorem isWritten_writeReg (s : State) (r r' : Reg) (v : Value) :
    (s.writeReg r v).isWritten r' = if r' = r then true else s.isWritten r' := by
  by_cases h : r' = r
  · subst h; simp
  · simp [h, isWritten_writeReg_of_ne]

@[simp] theorem readReg_setFlag (s : State) (b : Bool) (r : Reg) : (s.setFlag b).readReg r = s.readReg r := rfl
@[simp] theorem readReg_takeIllegalCommand (s : State) (r : Reg) : s.takeIllegalCommand.readReg r = s.readReg r := rfl
@[simp] theorem readReg_reply (s : State) (m : PortReply) (r : Reg) : (s.reply m).readReg r = s.readReg r := rfl
@[simp] theorem readReg_nextCommand (s : State) (r : Reg) : s.nextCommand.readReg r = s.readReg r := rfl
@[simp] theorem readReg_withPending (s : State) (ops : List PortOp) (r : Reg) : (s.withPending ops).readReg r = s.readReg r := rfl
@[simp] theorem isWritten_withPending (s : State) (ops : List PortOp) (r : Reg) :
    (s.withPending ops).isWritten r = s.isWritten r := rfl
@[simp] theorem isWritten_setFlag (s : State) (b : Bool) (r : Reg) : (s.setFlag b).isWritten r = s.isWritten r := rfl
@[simp] theorem isWritten_takeIllegalCommand (s : State) (r : Reg) : s.takeIllegalCommand.isWritten r = s.isWritten r := rfl
@[simp] theorem isWritten_reply (s : State) (m : PortReply) (r : Reg) : (s.reply m).isWritten r = s.isWritten r := rfl
@[simp] theorem isWritten_nextCommand (s : State) (r : Reg) : s.nextCommand.isWritten r = s.isWritten r := rfl

/-- After Reset() no written mark is set (R95). -/
@[simp] theorem isWritten_resetBlock (s : State) (r : Reg) : s.resetBlock.isWritten r = false := by
  fin_cases r <;> rfl

/-- After Reset() each register holds that reset's unspecified value (R95). -/
@[simp] theorem readReg_resetBlock (s : State) (r : Reg) :
    s.resetBlock.readReg r = Config.unspecifiedValue s.limbCount (s.epoch + 1) r := by
  fin_cases r <;> rfl

@[simp] theorem isWritten_resetOf (n : LimbCount) (r : Reg) : (State.resetOf n).isWritten r = false := by
  fin_cases r <;> rfl

@[simp] theorem readReg_resetOf (n : LimbCount) (r : Reg) :
    (State.resetOf n).readReg r = Config.unspecifiedValue n 0 r := by
  fin_cases r <;> rfl

@[simp] theorem length_unspecifiedValue (n : LimbCount) (epoch : Nat) (r : Reg) :
    (Config.unspecifiedValue n epoch r).length = n.count := by
  simp [Config.unspecifiedValue]

/-! ### Well-formed states: what keeps them so -/

theorem State.WF.writeReg {s : State} (h : s.WF) (r : Reg) {v : Value} (hv : v.length = s.limbCount.count) :
    (s.writeReg r v).WF := by
  intro r'
  rw [readReg_writeReg]
  split
  · exact hv
  · exact h r'

theorem State.WF.setFlag {s : State} (h : s.WF) (b : Bool) : (s.setFlag b).WF := h
theorem State.WF.takeIllegalCommand {s : State} (h : s.WF) : s.takeIllegalCommand.WF := h
theorem State.WF.reply {s : State} (h : s.WF) (m : PortReply) : (s.reply m).WF := h
theorem State.WF.nextCommand {s : State} (h : s.WF) : s.nextCommand.WF := h

theorem State.WF.withPending {s : State} (h : s.WF) (ops : List PortOp) : (s.withPending ops).WF := h

theorem resetBlock_wf (s : State) : s.resetBlock.WF := by
  intro r; simp

/-! ### `WritesOnly`: how the two shapes of a result are framed -/

theorem writesOnly_setFlag (s : State) (b : Bool) : WritesOnly [] s (s.setFlag b) :=
  ⟨by simp, by simp, ⟨rfl, rfl, rfl, rfl, rfl, rfl⟩⟩

theorem writesOnly_writeReg (s : State) (r : Reg) {v : Value} (hv : v.length = s.limbCount.count) :
    WritesOnly [r] s (s.writeReg r v) := by
  refine ⟨?_, ?_, ⟨rfl, rfl, rfl, rfl, rfl, rfl⟩⟩
  · intro r' hr'
    obtain rfl : r' = r := by simpa using hr'
    simp [hv]
  · intro r' hr'
    have hne : r' ≠ r := by simpa using hr'
    exact ⟨readReg_writeReg_of_ne s v hne, isWritten_writeReg_of_ne s v hne⟩

/-- Writing FLAG afterwards adds nothing to what a command writes. -/
theorem WritesOnly.setFlag {dst : List Reg} {s t : State} (h : WritesOnly dst s t) (b : Bool) :
    WritesOnly dst s (t.setFlag b) :=
  ⟨h.written, h.others, ⟨h.elsewhere.limbCount, h.elsewhere.ill, h.elsewhere.cmdIndex, h.elsewhere.pending,
    h.elsewhere.replies, h.elsewhere.epoch⟩⟩

theorem writesOnly_writeReg_two (s : State) {r r' : Reg} (hne : r ≠ r') {v v' : Value}
    (hv : v.length = s.limbCount.count) (hv' : v'.length = s.limbCount.count) :
    WritesOnly [r, r'] s ((s.writeReg r v).writeReg r' v') := by
  refine ⟨?_, ?_, ⟨rfl, rfl, rfl, rfl, rfl, rfl⟩⟩
  · intro x hx
    rcases List.mem_pair.mp hx with rfl | rfl
    · simp [isWritten_writeReg, readReg_writeReg, hne, hv]
    · simp [hv']
  · intro x hx
    have hx1 : x ≠ r := fun e => hx (by simp [e])
    have hx2 : x ≠ r' := fun e => hx (by simp [e])
    simp [isWritten_writeReg, readReg_writeReg, hx1, hx2]

/-- A well-formed state stays so under anything framed by `WritesOnly`. -/
theorem WritesOnly.wf {dst : List Reg} {s t : State} (h : WritesOnly dst s t) (hs : s.WF) : t.WF := by
  intro r
  rw [h.elsewhere.limbCount]
  by_cases hr : r ∈ dst
  · exact (h.written r hr).2
  · rw [(h.others r hr).1]; exact hs r

end Sys2Proof.Machine
end

