-- ==== Sys2Proof/Laws/Step.lean ====
section
/-! SUPPORT. What a command can do and what a step can do, said once (R44, R26). -/

namespace Sys2Proof.Machine

@[simp] theorem twoSources_a (s : State) (rs1 rs2 : Reg) : (s.twoSources rs1 rs2).a = s.readReg rs1 := rfl
@[simp] theorem twoSources_b (s : State) (rs1 rs2 : Reg) : (s.twoSources rs1 rs2).b = s.readReg rs2 := rfl

/-- A well-formed state's two sources have N limbs each. -/
theorem State.WF.sources_length {s : State} (h : s.WF) (rs1 rs2 : Reg) :
    (s.twoSources rs1 rs2).a.length = s.limbCount.count ∧
      (s.twoSources rs1 rs2).a.length = (s.twoSources rs1 rs2).b.length :=
  ⟨h rs1, (h rs1).trans (h rs2).symm⟩

/-- Everything a command can do: write its one destination, FLAG perhaps with it; write FLAG alone; write two
destinations; or, for the one ill-formed command, be illegal. -/
theorem exec_shape (i : Instr) (s : State) :
    (∃ rd v f, destinations i = [rd] ∧ exec i s = .next ((s.writeReg rd v).setFlag f) ∧
        (s.WF → v.length = s.limbCount.count) ∧ (writesFlag i = false → f = s.flag)) ∨
      (∃ f, destinations i = [] ∧ writesFlag i = true ∧ exec i s = .next (s.setFlag f)) ∨
      (∃ rd rd2 v v2, destinations i = [rd, rd2] ∧ rd ≠ rd2 ∧ writesFlag i = false ∧
        exec i s = .next ((s.writeReg rd v).writeReg rd2 v2) ∧
        v.length = s.limbCount.count ∧ v2.length = s.limbCount.count) ∨
      (i.wellFormed = false ∧ exec i s = .next s.takeIllegalCommand) := by
  cases i with
  | add rd rs1 rs2 =>
    exact .inl ⟨rd, _, _, rfl, rfl, fun h => by simp [h rs1, h rs2], by simp [writesFlag]⟩
  | sub rd rs1 rs2 =>
    exact .inl ⟨rd, _, _, rfl, rfl, fun h => by simp [h rs1, h rs2], by simp [writesFlag]⟩
  | cmpeq rs1 rs2 => exact .inr (.inl ⟨_, rfl, rfl, rfl⟩)
  | cmplt rs1 rs2 => exact .inr (.inl ⟨_, rfl, rfl, rfl⟩)
  | cmplte rs1 rs2 => exact .inr (.inl ⟨_, rfl, rfl, rfl⟩)
  | cmpgt rs1 rs2 => exact .inr (.inl ⟨_, rfl, rfl, rfl⟩)
  | cmpgte rs1 rs2 => exact .inr (.inl ⟨_, rfl, rfl, rfl⟩)
  | and rd rs1 rs2 =>
    exact .inl ⟨rd, _, s.flag, rfl, rfl, fun h => by simp [h rs1, h rs2], fun _ => rfl⟩
  | or rd rs1 rs2 =>
    exact .inl ⟨rd, _, s.flag, rfl, rfl, fun h => by simp [h rs1, h rs2], fun _ => rfl⟩
  | xor rd rs1 rs2 =>
    exact .inl ⟨rd, _, s.flag, rfl, rfl, fun h => by simp [h rs1, h rs2], fun _ => rfl⟩
  | not rd rs1 => exact .inl ⟨rd, _, s.flag, rfl, rfl, fun h => by simp [h rs1], fun _ => rfl⟩
  | mul rd rs1 rs2 =>
    exact .inl ⟨rd, _, _, rfl, rfl, fun _ => by simp [State.product], by simp [writesFlag]⟩
  | mulf rd rd2 rs1 rs2 =>
    by_cases h : rd = rd2
    · exact .inr (.inr (.inr ⟨by simp [Instr.wellFormed, h], if_pos h⟩))
    · exact .inr (.inr (.inl ⟨rd, rd2, _, _, rfl, h, rfl, if_neg h, by simp [State.product], by simp [State.product]⟩))
  | shl rd rs1 rs2 => exact .inl ⟨rd, _, s.flag, rfl, rfl, fun _ => by simp, fun _ => rfl⟩
  | shr rd rs1 rs2 => exact .inl ⟨rd, _, s.flag, rfl, rfl, fun _ => by simp, fun _ => rfl⟩

/-- A command always completes: no operand value makes it stop (R11, R80). -/
theorem exec_completes (i : Instr) (s : State) : ∃ t, exec i s = .next t := by
  rcases exec_shape i s with ⟨_, _, _, _, h, _⟩ | ⟨_, _, _, h⟩ | ⟨_, _, _, _, _, _, _, h, _⟩ | ⟨_, h⟩ <;> exact ⟨_, h⟩

/-- A well-formed command changes its destinations and FLAG, and nothing else (R15, R17). -/
theorem exec_writesOnly {i : Instr} {s t : State} (hi : i.wellFormed = true) (hs : s.WF) (h : exec i s = .next t) :
    WritesOnly (destinations i) s t ∧ (writesFlag i = false → t.flag = s.flag) := by
  rcases exec_shape i s with ⟨rd, v, f, hd, he, hv, hf⟩ | ⟨f, hd, hf, he⟩ | ⟨rd, rd2, v, v2, hd, hne, _, he, hv, hv2⟩ |
      ⟨hb, _⟩
  · cases h.symm.trans he
    exact ⟨hd ▸ (writesOnly_writeReg s rd (hv hs)).setFlag f, hf⟩
  · cases h.symm.trans he
    exact ⟨hd ▸ writesOnly_setFlag s f, by simp [hf]⟩
  · cases h.symm.trans he
    exact ⟨hd ▸ writesOnly_writeReg_two s hne hv hv2, fun _ => rfl⟩
  · simp [hi] at hb

/-- Everything a step that answers a next state can have done (R26, R44, R94). -/
theorem step_cases {s t : State} (h : step s = .next t) :
    (s.pending = [] ∧ t = s) ∨
      (∃ r v rest, s.pending = .writeReg r v :: rest ∧ v.length = s.limbCount.count ∧
        t = (s.withPending rest).writeReg r v) ∨
      (∃ r rest, s.pending = .readReg r :: rest ∧ t = (s.withPending rest).reply (.regValue r (s.readReg r))) ∨
      (∃ rest, s.pending = .readStatus :: rest ∧ t = (s.withPending rest).reply (.status s.statusWord)) ∨
      (∃ cmd e rest, s.pending = .issue cmd :: rest ∧ decode cmd = .error e ∧
        t = (s.withPending rest).nextCommand.takeIllegalCommand) ∨
      (∃ cmd i rest, s.pending = .issue cmd :: rest ∧ decode cmd = .ok i ∧
        exec i (s.withPending rest).nextCommand = .next t) ∨
      (∃ rest, s.pending = .reset :: rest ∧ t = (s.withPending rest).resetBlock) := by
  unfold step hostEvent at h
  split at h
  · next hp => cases h; exact .inl ⟨hp, rfl⟩
  · next op rest hp =>
    cases op with
    | writeReg r v =>
      by_cases hv : v.length = s.limbCount.count
      · have e : perform (.writeReg r v) (s.withPending rest) = .next ((s.withPending rest).writeReg r v) := if_pos hv
        cases h.symm.trans e
        exact .inr (.inl ⟨r, v, rest, hp, hv, rfl⟩)
      · have e : perform (.writeReg r v) (s.withPending rest) = .refused (.partialTransfer r) := if_neg hv
        cases h.symm.trans e
    | readReg r => cases h; exact .inr (.inr (.inl ⟨r, rest, hp, rfl⟩))
    | readStatus => cases h; exact .inr (.inr (.inr (.inl ⟨rest, hp, rfl⟩)))
    | issue cmd =>
      simp only [perform, issue] at h
      split at h
      · next e he => cases h; exact .inr (.inr (.inr (.inr (.inl ⟨cmd, e, rest, hp, he, rfl⟩))))
      · next i hi => exact .inr (.inr (.inr (.inr (.inr (.inl ⟨cmd, i, rest, hp, hi, h⟩)))))
    | reset => cases h; exact .inr (.inr (.inr (.inr (.inr (.inr ⟨rest, hp, rfl⟩)))))

end Sys2Proof.Machine
end

