-- ==== Sys2Proof/Tests/Slice0.lean ====
section
/-! SUPPORT. Tests. Expected values are those of spec/95_test_vectors.md (the id stands in each docstring) or of the rule named;
and, for each statement of Certificates/Slice0/Obligations.lean with hypotheses, a concrete state and operands that meet them
(theorems named witness_…). -/

namespace Sys2Proof.Tests

open Sys2Proof.Machine

/-- The limb of all ones, written F in the spec's vectors. -/
def ones : Limb := 0xFFFFFFFFFFFFFFFF

/-- N zero limbs. -/
def zeros (n : LimbCount) : Value := List.replicate n.count 0

/-- An instance with V0 = a and V1 = b written since reset; the other registers hold zeros and are not marked written. -/
def twoRegs (n : LimbCount) (a b : Value) : State :=
  { State.resetOf n with
    regs := #v[a, b, zeros n, zeros n, zeros n, zeros n, zeros n, zeros n]
    written := #v[true, true, false, false, false, false, false, false] }

/-- What register `r` holds in the next state a meaning answers. -/
def regAfter (r : Reg) : Result → Option Value
  | .next t => some (t.readReg r)
  | .fault _ => none
  | .refused _ => none

/-- FLAG in the next state a meaning answers. -/
def flagAfter : Result → Option Bool
  | .next t => some t.flag
  | .fault _ => none
  | .refused _ => none

/-- ILL in the next state a meaning answers. -/
def illAfter : Result → Option Bool
  | .next t => some t.ill
  | .fault _ => none
  | .refused _ => none

/-! ### Well-formedness -/

theorem test_illformed_mulf_is_refused : (Instr.mulf 2 2 0 1).wellFormed = false := by decide
theorem test_wellformed_mulf : (Instr.mulf 4 1 5 0).wellFormed = true := by decide

/-! ### Decoding: every constructor, the words written out bit by bit (RSV, RD2, RS2, RS1, RD, OPC) from R36 and R40 -/

/-- E-1: 000000000000000 000 001 000 010 00001 -/
theorem test_decode_add : decodeTableWord 32 0b00000000000000000000100001000001 = some (.add 2 0 1) := by decide
/-- E-2: 000000000000000 000 101 110 111 00010 -/
theorem test_decode_sub : decodeTableWord 32 0b00000000000000000010111011100010 = some (.sub 7 6 5) := by decide
/-- E-3: 000000000000000 000 000 000 000 00011 -/
theorem test_decode_cmpeq : decodeTableWord 32 0b00000000000000000000000000000011 = some (.cmpeq 0 0) := by decide
/-- E-4: 000000000000000 000 110 011 000 00100 -/
theorem test_decode_cmplt : decodeTableWord 32 0b00000000000000000011001100000100 = some (.cmplt 3 6) := by decide
/-- E-5: 000000000000000 000 010 001 000 00101 -/
theorem test_decode_cmplte : decodeTableWord 32 0b00000000000000000001000100000101 = some (.cmplte 1 2) := by decide
/-- E-6: 000000000000000 000 010 001 000 00110 -/
theorem test_decode_cmpgt : decodeTableWord 32 0b00000000000000000001000100000110 = some (.cmpgt 1 2) := by decide
/-- E-7: 000000000000000 000 111 111 000 00111 -/
theorem test_decode_cmpgte : decodeTableWord 32 0b00000000000000000011111100000111 = some (.cmpgte 7 7) := by decide
/-- E-8: 000000000000000 000 011 010 001 01000 -/
theorem test_decode_and : decodeTableWord 32 0b00000000000000000001101000101000 = some (.and 1 2 3) := by decide
/-- E-9: 000000000000000 000 100 100 100 01001 -/
theorem test_decode_or : decodeTableWord 32 0b00000000000000000010010010001001 = some (.or 4 4 4) := by decide
/-- E-10: 000000000000000 000 101 101 101 01010 -/
theorem test_decode_xor : decodeTableWord 32 0b00000000000000000010110110101010 = some (.xor 5 5 5) := by decide
/-- E-11: 000000000000000 000 000 111 111 01011 -/
theorem test_decode_not : decodeTableWord 32 0b00000000000000000000011111101011 = some (.not 7 7) := by decide
/-- E-12: 000000000000000 000 010 010 010 01100 -/
theorem test_decode_mul : decodeTableWord 32 0b00000000000000000001001001001100 = some (.mul 2 2 2) := by decide
/-- E-14: 000000000000000 111 010 001 000 01101 -/
theorem test_decode_mulf : decodeTableWord 32 0b00000000000000011101000100001101 = some (.mulf 0 7 1 2) := by decide
/-- E-15: 000000000000000 000 011 000 001 01110 -/
theorem test_decode_shl : decodeTableWord 32 0b00000000000000000001100000101110 = some (.shl 1 0 3) := by decide
/-- E-16: 000000000000000 000 101 110 111 01111 -/
theorem test_decode_shr : decodeTableWord 32 0b00000000000000000010111011101111 = some (.shr 7 6 5) := by decide

/-! ### Illegal words, X-1 to X-11 -/

theorem test_illegal_opcode : decode 0x00000000 = .error .reservedOpcode ∧ decode 0x00000010 = .error .reservedOpcode ∧
    decode 0x0000001F = .error .reservedOpcode := by decide
theorem test_illegal_reserved_bits : decode 0x00020021 = .error .reservedBits ∧ decode 0x80000001 = .error .reservedBits := by
  decide
theorem test_illegal_unused_field : decode 0x00004001 = .error .unusedField ∧ decode 0x00000023 = .error .unusedField ∧
    decode 0x00000825 = .error .unusedField ∧ decode 0x0000080B = .error .unusedField := by decide
theorem test_illegal_mulf : decode 0x0001C0ED = .error .sameDestinations ∧ decode 0x0000804D = .error .sameDestinations := by
  decide

/-! ### The limb primitives, LP-1 to LP-11 -/

theorem test_add_with_carry : addWithCarry true ones ones = (ones, true) ∧ addWithCarry true ones 0 = (0, true) ∧
    addWithCarry true 1 2 = (4, false) := by decide
theorem test_sub_with_borrow : subWithBorrow true 0 ones = (0, true) ∧ subWithBorrow false 0 1 = (ones, true) ∧
    subWithBorrow true 5 4 = (0, false) := by decide
theorem test_widening_multiply : wideningMultiply 0x123456789ABCDEF0 0x0FEDCBA987654321 =
    ⟨0x2236D88FE5618CF0, 0x0121FA00AD77D742⟩ := by decide
theorem test_multiply_accumulate3 : multiplyAccumulate3 ⟨0, ones, 0⟩ ones ones = ⟨1, 0xFFFFFFFFFFFFFFFD, 1⟩ := by decide
/-- The corner case of R51: the same inputs with the two-word accumulator lose the carry. -/
theorem test_multiply_accumulate_loses : multiplyAccumulate ones 0 ones ones = ⟨1, 0xFFFFFFFFFFFFFFFD, true⟩ := by decide

/-! ### The commands -/

/-- ADD-1 -/
theorem test_add_ripples : regAfter 2 (exec (.add 2 0 1) (twoRegs .n2 [ones, 0] [1, 0])) = some [0, 1] ∧
    flagAfter (exec (.add 2 0 1) (twoRegs .n2 [ones, 0] [1, 0])) = some false := by decide
/-- ADD-7 -/
theorem test_add_carries_out : regAfter 2 (exec (.add 2 0 1) (twoRegs .n4 [ones, ones, ones, ones] [1, 0, 0, 0])) = some [0, 0, 0, 0] ∧
    flagAfter (exec (.add 2 0 1) (twoRegs .n4 [ones, ones, ones, ones] [1, 0, 0, 0])) = some true := by decide
/-- SUB-1 -/
theorem test_sub_wraps : regAfter 2 (exec (.sub 2 0 1) (twoRegs .n2 [0, 0] [1, 0])) = some [ones, ones] ∧
    flagAfter (exec (.sub 2 0 1) (twoRegs .n2 [0, 0] [1, 0])) = some true := by decide
/-- SUB-6 -/
theorem test_sub_borrows_across : regAfter 2 (exec (.sub 2 0 1) (twoRegs .n4 [0, 0, 0, 1] [1, 0, 0, 0])) = some [ones, ones, ones, 0] ∧
    flagAfter (exec (.sub 2 0 1) (twoRegs .n4 [0, 0, 0, 1] [1, 0, 0, 0])) = some false := by decide
/-- CMPEQ-1 -/
theorem test_cmpeq_equal : flagAfter (exec (.cmpeq 0 1) (twoRegs .n2 [5, 7] [5, 7])) = some true := by decide
/-- CMPEQ-2 -/
theorem test_cmpeq_top_limb : flagAfter (exec (.cmpeq 0 1) (twoRegs .n2 [5, 7] [5, 6])) = some false := by decide
/-- CMPLT-7 -/
theorem test_cmplt_top_limb_decides : flagAfter (exec (.cmplt 0 1) (twoRegs .n2 [ones, 0] [0, 1])) = some true := by decide
/-- CMPLT-5 -/
theorem test_cmplt_equal : flagAfter (exec (.cmplt 0 1) (twoRegs .n2 [5, 7] [5, 7])) = some false := by decide
/-- CMPLTE-9 -/
theorem test_cmplte_equal : flagAfter (exec (.cmplte 0 1) (twoRegs .n2 [5, 7] [5, 7])) = some true := by decide
/-- CMPLTE-10 -/
theorem test_cmplte_greater : flagAfter (exec (.cmplte 0 1) (twoRegs .n2 [5, 7] [5, 6])) = some false := by decide
/-- CMPGT-14 -/
theorem test_cmpgt_greater : flagAfter (exec (.cmpgt 0 1) (twoRegs .n2 [5, 7] [5, 6])) = some true := by decide
/-- CMPGT-15 -/
theorem test_cmpgt_less : flagAfter (exec (.cmpgt 0 1) (twoRegs .n2 [ones, 0] [0, 1])) = some false := by decide
/-- CMPGTE-17 -/
theorem test_cmpgte_equal : flagAfter (exec (.cmpgte 0 1) (twoRegs .n2 [5, 7] [5, 7])) = some true := by decide
/-- CMPGTE-19 -/
theorem test_cmpgte_less : flagAfter (exec (.cmpgte 0 1) (twoRegs .n2 [ones, 0] [0, 1])) = some false := by decide
/-- AND-1 -/
theorem test_and_mixed : regAfter 2 (exec (.and 2 0 1) (twoRegs .n2 [0xFF00FF00FF00FF00, 0x0123456789ABCDEF] [0x0FF00FF00FF00FF0, 0xFFFFFFFF00000000])) = some [0x0F000F000F000F00, 0x0123456700000000] := by decide
/-- OR-2 -/
theorem test_or_mixed : regAfter 2 (exec (.or 2 0 1) (twoRegs .n2 [0xFF00FF00FF00FF00, 0x0123456789ABCDEF] [0x0FF00FF00FF00FF0, 0xFFFFFFFF00000000])) = some [0xFFF0FFF0FFF0FFF0, 0xFFFFFFFF89ABCDEF] := by decide
/-- XOR-3 -/
theorem test_xor_mixed : regAfter 2 (exec (.xor 2 0 1) (twoRegs .n2 [0xFF00FF00FF00FF00, 0x0123456789ABCDEF] [0x0FF00FF00FF00FF0, 0xFFFFFFFF00000000])) = some [0xF0F0F0F0F0F0F0F0, 0xFEDCBA9889ABCDEF] := by decide
/-- NOT-7 -/
theorem test_not_mixed : regAfter 2 (exec (.not 2 0) (twoRegs .n2 [0, ones] [0, 0])) = some [ones, 0] := by decide
/-- MUL-2 -/
theorem test_mul_overflow_past_the_columns : regAfter 2 (exec (.mul 2 0 1) (twoRegs .n2 [0, 1] [0, 1])) = some [0, 0] ∧
    flagAfter (exec (.mul 2 0 1) (twoRegs .n2 [0, 1] [0, 1])) = some true := by decide
/-- MUL-7 -/
theorem test_mul_fits : regAfter 2 (exec (.mul 2 0 1) (twoRegs .n2 [0xFFFFFFFF, 0] [0xFFFFFFFF, 0])) = some [0xFFFFFFFE00000001, 0] ∧
    flagAfter (exec (.mul 2 0 1) (twoRegs .n2 [0xFFFFFFFF, 0] [0xFFFFFFFF, 0])) = some false := by decide
/-- MULF-5, the high half -/
theorem test_mulf_all_ones_high : regAfter 2 (exec (.mulf 3 2 0 1) (twoRegs .n4 [ones, ones, ones, ones] [ones, ones, ones, ones])) = some [0xFFFFFFFFFFFFFFFE, ones, ones, ones] := by decide
/-- MULF-9, the low half -/
theorem test_mulf_mixed_low : regAfter 2 (exec (.mulf 2 3 0 1) (twoRegs .n2 [0xFEDCBA9876543210, 0x123456789ABCDEF0] [0x8796A5B4C3D2E1F0, 0x0F1E2D3C4B5A6978])) = some [0x5EF9A562300EFF00, 0xB8A47F4901A93FD5] := by decide
/-- SHL-12 -/
theorem test_shl_crosses_limbs : regAfter 2 (exec (.shl 2 0 1) (twoRegs .n2 [0x0123456789ABCDEF, 0x8000000000000001] [63, 0])) = some [0x8000000000000000, 0x8091A2B3C4D5E6F7] := by decide
/-- SHL-16 -/
theorem test_shl_by_width_is_identity : regAfter 2 (exec (.shl 2 0 1) (twoRegs .n2 [0x0123456789ABCDEF, 0x8000000000000001] [128, 0])) = some [0x0123456789ABCDEF, 0x8000000000000001] := by decide
/-- SHR-8 -/
theorem test_shr_masks_the_amount : regAfter 2 (exec (.shr 2 0 1) (twoRegs .n2 [0x0123456789ABCDEF, 0x8000000000000001] [129, 0])) = some [0x8091A2B3C4D5E6F7, 0x4000000000000000] := by decide
/-- SHR-9 -/
theorem test_shr_by_width_less_one : regAfter 2 (exec (.shr 2 0 1) (twoRegs .n2 [0x0123456789ABCDEF, 0x8000000000000001] [ones, 0])) = some [1, 0] := by decide
set_option maxRecDepth 8000 in
/-- MULF-7, the adversarial all-ones product at N = 16: the high half. -/
theorem test_mulf_all_ones_n16 :
    regAfter 2 (exec (.mulf 3 2 0 1) (twoRegs .n16 (List.replicate 16 ones) (List.replicate 16 ones))) =
      some (0xFFFFFFFFFFFFFFFE :: List.replicate 15 ones) := by decide
/-- R73, R82: MULF with one register for both halves, as syntax, is an illegal command. -/
theorem test_illformed_mulf_sets_ill : illAfter (exec (.mulf 2 2 0 1) (twoRegs .n2 [3, 0] [5, 0])) = some true ∧
    regAfter 2 (exec (.mulf 2 2 0 1) (twoRegs .n2 [3, 0] [5, 0])) = some [0, 0] := by decide
/-- R44: `ADD V0, V0, V0` reads before it writes (P4, step 6). -/
theorem test_add_source_is_destination :
    regAfter 0 (exec (.add 0 0 0) (twoRegs .n2 [0x0123456789ABCDEF, 0x8000000000000001] [0, 0])) =
      some [0x02468ACF13579BDE, 2] := by decide

/-! ### Steps -/

/-- From reset, with the host about to issue `ADD V2, V0, V1`, the step runs it: it answers a next state, in which V2 is
written. -/
theorem test_step_from_reset :
    (match step (State.reset.withFetchWord 32 0x00000841) with
      | .next t => t.isWritten 2 && !t.isWritten 0 && t.cmdIndex == 1 && t.pending == []
      | .fault _ => false
      | .refused _ => false) = true := by decide
/-- P5, step 3, and P5, step 7: an illegal word sets ILL; the checked model faults on the unwritten V4. -/
theorem test_step_illegal_word : illAfter (step ((twoRegs .n2 [7, 0] [0, 0]).withFetchWord 32 0x0000804D)) = some true := by
  decide
theorem test_checked_step_unwritten :
    (match checkedStep ((twoRegs .n2 [7, 0] [0, 0]).withFetchWord 32 0x00002061) with
      | .next _ => false
      | .fault f => f == .unwritten 4 && f.code == 2
      | .refused _ => false) = true := by decide
/-- P5, step 6: STATUS with FLAG and ILL set is 0x3. -/
theorem test_status : (((twoRegs .n2 [0, 0] [0, 0]).setFlag true).takeIllegalCommand).statusWord = 3 := by decide

/-! ### The assembler -/

/-- R45's examples, with lower case, blanks and a comment. -/
theorem test_assemble_add :
    assembleLine ['a', 'd', 'd', ' ', 'V', '2', ',', ' ', 'v', '0', ',', 'V', '1', ' ', ';', ' ', 'x'] = .ok [.add 2 0 1] := by
  decide
theorem test_assemble_neg : assembleLine ['N', 'E', 'G', ' ', 'V', '2', ',', 'V', '0', ',', 'V', '1'] =
    .ok [.not 2 0, .add 2 2 1] := by decide
theorem test_assemble_comment_line : assembleLine [' ', ';', ' ', 'A', 'D', 'D'] = .ok [] := by decide

/-! ### Witnesses: states and operands that meet the hypotheses of the statements -/

theorem not_ok_of_error {w : CommandWord} {e : IllegalReason} (h : decode w = .error e) : ∀ i, decode w ≠ .ok i := by
  intro i hi
  rw [h] at hi
  cases hi

/-- A well-formed state of each N. -/
theorem witness_wf : (twoRegs .n2 [ones, 0] [1, 0]).WF ∧ (twoRegs .n4 (zeros .n4) (zeros .n4)).WF ∧
    (twoRegs .n8 (zeros .n8) (zeros .n8)).WF ∧ (twoRegs .n16 (zeros .n16) (zeros .n16)).WF := by
  refine ⟨?_, ?_, ?_, ?_⟩ <;> intro r <;> fin_cases r <;> rfl

theorem witness_DecodeOfEncodeIsTheCommand : (Instr.mulf 4 1 5 0).wellFormed = true := by decide
theorem witness_DecodedWordIsItsEncoding : decode 0x0000458D = .ok (.mulf 4 1 5 0) := by decide
/-- One word for each clause of R43: OPC 0, OPC 0x10, RSV, RD2, RD of a compare, RS2 of NOT. -/
theorem witness_ReservedEncodingsAreIllegal :
    (opcField 0x00000000).toNat = 0x00 ∧ 0x10 ≤ (opcField 0x00000010).toNat ∧ rsvField 0x00020021 ≠ 0 ∧
      ((opcField 0x00004001).toNat ≠ 0x0D ∧ rd2Field 0x00004001 ≠ 0) ∧
      (0x03 ≤ (opcField 0x00000023).toNat ∧ (opcField 0x00000023).toNat ≤ 0x07 ∧ rdField 0x00000023 ≠ 0) ∧
      ((opcField 0x0000080B).toNat = 0x0B ∧ rs2Field 0x0000080B ≠ 0) := by decide

/-- The state whose host is about to perform `op`. -/
def about (op : PortOp) : State := (twoRegs .n2 [ones, ones] [1, 0]).withPending [op]

theorem witness_about_wf (op : PortOp) : (about op).WF := by
  intro r
  fin_cases r <;> rfl

theorem witness_StepRunsTheDecodedCommand :
    (about (.issue 0x00000841)).pending = [.issue 0x00000841] ∧ decode 0x00000841 = .ok (.add 2 0 1) := by decide
theorem witness_IllegalWordOnlySetsIll :
    (about (.issue 0x00020021)).pending = [.issue 0x00020021] ∧ ∀ i, decode 0x00020021 ≠ .ok i :=
  ⟨rfl, not_ok_of_error (e := .reservedBits) (by decide)⟩
theorem witness_IdleStepKeepsTheState : State.reset.pending = [] := rfl
theorem witness_WriteRegWritesOneWholeRegister :
    (about (.writeReg 3 [5, 7])).pending = [.writeReg 3 [5, 7]] ∧
      List.length [5, 7] = (about (.writeReg 3 [5, 7])).limbCount.count := by decide
theorem witness_PartialTransferIsRefused :
    (about (.writeReg 3 [5])).pending = [.writeReg 3 [5]] ∧ List.length [5] ≠ (about (.writeReg 3 [5])).limbCount.count := by
  decide
theorem witness_ReadsReturnAndChangeNothing :
    (about (.readReg 0)).pending = [.readReg 0] ∧ (about .readStatus).pending = [.readStatus] := by decide
theorem witness_ResetOperationClearsFlagIllAndMarks : (about .reset).pending = [.reset] := rfl

theorem witness_StepKeepsWellFormed : (about (.issue 0x00000841)).WF ∧ ∃ t, step (about (.issue 0x00000841)) = .next t :=
  ⟨witness_about_wf _, _, rfl⟩
theorem witness_StepKeepsTheInstanceWidth : (about (.writeReg 3 [5, 7])).WF ∧
    ∃ t, step (about (.writeReg 3 [5, 7])) = .next t := ⟨witness_about_wf _, _, rfl⟩
/-- One step for each of the three ways a register or its mark changes. -/
theorem witness_RegistersChangeOnlyAsDestinations :
    (∃ t, step (about (.writeReg 3 [5, 7])) = .next t ∧ t.readReg 3 ≠ (about (.writeReg 3 [5, 7])).readReg 3) ∧
      (∃ t, step (about (.issue 0x000000A1)) = .next t ∧ t.readReg 5 ≠ (about (.issue 0x000000A1)).readReg 5) ∧
      (∃ t, step (about .reset) = .next t ∧ t.isWritten 0 ≠ (about .reset).isWritten 0) :=
  ⟨⟨_, rfl, by decide⟩, ⟨_, rfl, by decide⟩, ⟨_, rfl, by decide⟩⟩
/-- FLAG changes at an ADD that carries, and at a reset with FLAG = 1. -/
theorem witness_FlagChangesOnlyByFlagCommands :
    (∃ t, step (about (.issue 0x00000841)) = .next t ∧ t.flag ≠ (about (.issue 0x00000841)).flag) ∧
      (∃ t, step ((about .reset).setFlag true) = .next t ∧ t.flag ≠ ((about .reset).setFlag true).flag) :=
  ⟨⟨_, rfl, by decide⟩, ⟨_, rfl, by decide⟩⟩
/-- ILL becomes 1 at an illegal word, and stays 1 at a legal one. -/
theorem witness_IllIsSetByIllegalWordsAndSticky :
    (∃ t, step (about (.issue 0)) = .next t ∧ t.ill = true) ∧
      (∃ t, step ((about (.issue 0x00000841)).takeIllegalCommand) = .next t ∧ t.ill = true) :=
  ⟨⟨_, rfl, rfl⟩, ⟨_, rfl, rfl⟩⟩
theorem witness_CommandIndexCountsCommands :
    ((∃ t, step (about (.issue 0)) = .next t) ∧ ∃ w rest, (about (.issue 0)).pending = .issue w :: rest) ∧
      ((∃ t, step (about .readStatus) = .next t) ∧ ∀ w rest, (about .readStatus).pending ≠ .issue w :: rest) :=
  ⟨⟨⟨_, rfl⟩, 0, [], rfl⟩, ⟨_, rfl⟩, fun w rest h => by simp [about] at h⟩
/-- The two ways a step can come out: a next state, and the refusal of a partial transfer. -/
theorem witness_StepStopsOnNoValue : (∃ t, step (about (.issue 0x00000841)) = .next t) ∧
    step (about (.writeReg 3 [5])) = .refused (.partialTransfer 3) := ⟨⟨_, rfl⟩, rfl⟩
/-- Two states that agree on the sources V0 and V1 of a command and differ in FLAG. -/
theorem witness_ResultsDependOnSourcesOnly :
    (Instr.add 2 0 1).wellFormed = true ∧
      (twoRegs .n2 [ones, 0] [1, 0]).limbCount = ((twoRegs .n2 [ones, 0] [1, 0]).setFlag true).limbCount ∧
      (∀ r ∈ sources (.add 2 0 1), (twoRegs .n2 [ones, 0] [1, 0]).readReg r =
        ((twoRegs .n2 [ones, 0] [1, 0]).setFlag true).readReg r) ∧
      (twoRegs .n2 [ones, 0] [1, 0]).flag ≠ ((twoRegs .n2 [ones, 0] [1, 0]).setFlag true).flag := by decide

/-- One word for each clause of the priority: illegal; RS1 unwritten; RS2 unwritten; both written; NOT of a written RS1. -/
theorem witness_ExceptionPriority :
    (∀ i, decode 0 ≠ .ok i) ∧
      (decode 0x00000A41 = .ok (.add 2 2 1) ∧ (about .reset).isWritten (rs1Field 0x00000A41) = false) ∧
      (decode 0x00002061 = .ok (.add 3 0 4) ∧ (about .reset).isWritten (rs1Field 0x00002061) = true ∧
        (opcField 0x00002061).toNat ≠ 0x0B ∧ (about .reset).isWritten (rs2Field 0x00002061) = false) ∧
      (decode 0x00000841 = .ok (.add 2 0 1) ∧ (about .reset).isWritten (rs1Field 0x00000841) = true ∧
        (about .reset).isWritten (rs2Field 0x00000841) = true) ∧
      (decode 0x0000004B = .ok (.not 2 0) ∧ (about .reset).isWritten (rs1Field 0x0000004B) = true ∧
        (opcField 0x0000004B).toNat = 0x0B) :=
  ⟨not_ok_of_error (e := .reservedOpcode) (by decide), by decide, by decide, by decide, by decide⟩
theorem witness_CheckedStepRefinesStep :
    (∃ t, checkedStep (about (.issue 0x00000841)) = .next t) ∧
      checkedStep (about (.issue 0x00002061)) = .fault (.unwritten 4) ∧
      checkedStep (about (.readReg 5)) = .fault (.unwritten 5) := ⟨⟨_, rfl⟩, rfl, rfl⟩
theorem witness_ReadyCommandsPassTheCheck :
    (about (.issue 0x00000841)).pending = [.issue 0x00000841] ∧ decode 0x00000841 = .ok (.add 2 0 1) ∧
      (about (.issue 0x00000841)).ready (.add 2 0 1) = true := by decide

/-- `about op` with another value in V3, which nothing has written. -/
def aboutOther (op : PortOp) : State := { about op with regs := (about op).regs.set 3 [9, 9] }

/-- Two states that agree on everything written and differ in V3; a checked run of the one that goes on, and one that
faults. -/
theorem witness_CheckedRunIgnoresUnwrittenContents :
    AgreeOnWritten (about (.issue 0x00000841)) (aboutOther (.issue 0x00000841)) ∧
      (about (.issue 0x00000841)).readReg 3 ≠ (aboutOther (.issue 0x00000841)).readReg 3 ∧
      (∃ t, checkedRun 1 (about (.issue 0x00000841)) = .next t) ∧
      checkedRun 1 (about (.readReg 3)) = .fault (.unwritten 3) :=
  ⟨⟨rfl, by decide, by decide, rfl, rfl, rfl, rfl, rfl⟩, by decide, ⟨_, rfl⟩, rfl⟩

/-! Each command's statement: a well-formed state in which it completes, and the marks that the two branches of the checked
reading need (V0 and V1 written, V2 not). -/

/-- The hypotheses of a command's statement at one state: well formed, V0 and V1 written, V2 not. -/
theorem witness_command_state : (twoRegs .n2 [ones, 0] [1, 0]).WF ∧ (twoRegs .n2 [ones, 0] [1, 0]).isWritten 0 = true ∧
    (twoRegs .n2 [ones, 0] [1, 0]).isWritten 1 = true ∧ (twoRegs .n2 [ones, 0] [1, 0]).isWritten 2 = false :=
  ⟨witness_wf.1, rfl, rfl, rfl⟩
theorem witness_AddWritesSumAndCarry : (twoRegs .n2 [ones, 0] [1, 0]).WF ∧ ∃ t, exec (.add 2 0 1) (twoRegs .n2 [ones, 0] [1, 0]) = .next t :=
  ⟨witness_wf.1, _, rfl⟩
theorem witness_SubWritesDifferenceAndBorrow : (twoRegs .n2 [ones, 0] [1, 0]).WF ∧ ∃ t, exec (.sub 2 0 1) (twoRegs .n2 [ones, 0] [1, 0]) = .next t :=
  ⟨witness_wf.1, _, rfl⟩
theorem witness_CmpeqFlagsEqual : (twoRegs .n2 [ones, 0] [1, 0]).WF ∧ ∃ t, exec (.cmpeq 0 1) (twoRegs .n2 [ones, 0] [1, 0]) = .next t :=
  ⟨witness_wf.1, _, rfl⟩
theorem witness_CmpltFlagsLess : (twoRegs .n2 [ones, 0] [1, 0]).WF ∧ ∃ t, exec (.cmplt 0 1) (twoRegs .n2 [ones, 0] [1, 0]) = .next t :=
  ⟨witness_wf.1, _, rfl⟩
theorem witness_CmplteFlagsLessOrEqual : (twoRegs .n2 [ones, 0] [1, 0]).WF ∧ ∃ t, exec (.cmplte 0 1) (twoRegs .n2 [ones, 0] [1, 0]) = .next t :=
  ⟨witness_wf.1, _, rfl⟩
theorem witness_CmpgtFlagsGreater : (twoRegs .n2 [ones, 0] [1, 0]).WF ∧ ∃ t, exec (.cmpgt 0 1) (twoRegs .n2 [ones, 0] [1, 0]) = .next t :=
  ⟨witness_wf.1, _, rfl⟩
theorem witness_CmpgteFlagsGreaterOrEqual : (twoRegs .n2 [ones, 0] [1, 0]).WF ∧ ∃ t, exec (.cmpgte 0 1) (twoRegs .n2 [ones, 0] [1, 0]) = .next t :=
  ⟨witness_wf.1, _, rfl⟩
theorem witness_AndIsLimbwise : (twoRegs .n2 [ones, 0] [1, 0]).WF ∧ ∃ t, exec (.and 2 0 1) (twoRegs .n2 [ones, 0] [1, 0]) = .next t :=
  ⟨witness_wf.1, _, rfl⟩
theorem witness_OrIsLimbwise : (twoRegs .n2 [ones, 0] [1, 0]).WF ∧ ∃ t, exec (.or 2 0 1) (twoRegs .n2 [ones, 0] [1, 0]) = .next t :=
  ⟨witness_wf.1, _, rfl⟩
theorem witness_XorIsLimbwise : (twoRegs .n2 [ones, 0] [1, 0]).WF ∧ ∃ t, exec (.xor 2 0 1) (twoRegs .n2 [ones, 0] [1, 0]) = .next t :=
  ⟨witness_wf.1, _, rfl⟩
theorem witness_NotIsLimbwiseComplement : (twoRegs .n2 [ones, 0] [1, 0]).WF ∧ ∃ t, exec (.not 2 0) (twoRegs .n2 [ones, 0] [1, 0]) = .next t :=
  ⟨witness_wf.1, _, rfl⟩
theorem witness_MulWritesLowProductAndOverflow : (twoRegs .n2 [ones, 0] [1, 0]).WF ∧ ∃ t, exec (.mul 2 0 1) (twoRegs .n2 [ones, 0] [1, 0]) = .next t :=
  ⟨witness_wf.1, _, rfl⟩
theorem witness_ShlMultipliesByThePower : (twoRegs .n2 [ones, 0] [1, 0]).WF ∧ ∃ t, exec (.shl 2 0 1) (twoRegs .n2 [ones, 0] [1, 0]) = .next t :=
  ⟨witness_wf.1, _, rfl⟩
theorem witness_ShrDividesByThePower : (twoRegs .n2 [ones, 0] [1, 0]).WF ∧ ∃ t, exec (.shr 2 0 1) (twoRegs .n2 [ones, 0] [1, 0]) = .next t :=
  ⟨witness_wf.1, _, rfl⟩
/-- Both clauses of MULF: two destinations, and one. -/
theorem witness_MulfWritesTheWholeProduct :
    ((2 : Reg) ≠ 3 ∧ (twoRegs .n2 [ones, 0] [1, 0]).WF ∧
      ∃ t, exec (.mulf 2 3 0 1) (twoRegs .n2 [ones, 0] [1, 0]) = .next t) ∧
      ∃ t, exec (.mulf 2 2 0 1) (twoRegs .n2 [ones, 0] [1, 0]) = .next t :=
  ⟨⟨by decide, witness_wf.1, _, rfl⟩, _, rfl⟩

theorem witness_SubUndoesAdd : (twoRegs .n2 [ones, 0] [1, 0]).WF ∧ (2 : Reg) ≠ 1 := ⟨witness_wf.1, by decide⟩
theorem witness_ComparisonsAreATotalOrder : (twoRegs .n2 [ones, 0] [1, 0]).WF := witness_wf.1
theorem witness_MulAndMulfAgree : (twoRegs .n2 [ones, 0] [1, 0]).WF ∧ (3 : Reg) ≠ 4 := ⟨witness_wf.1, by decide⟩
/-- With an amount that is a multiple of W, and with one that is not. -/
theorem witness_ShiftLaws :
    ((twoRegs .n2 [ones, 0] [256, 0]).WF ∧ (twoRegs .n2 [ones, 0] [256, 0]).width ∣
      (limbAt ((twoRegs .n2 [ones, 0] [256, 0]).readReg 1) 0).toNat) ∧
      ((twoRegs .n2 [ones, 0] [1, 0]).WF ∧ ¬ (twoRegs .n2 [ones, 0] [1, 0]).width ∣
        (limbAt ((twoRegs .n2 [ones, 0] [1, 0]).readReg 1) 0).toNat) :=
  ⟨⟨fun r => by fin_cases r <;> rfl, by decide⟩, witness_wf.1, by decide⟩
theorem witness_ColumnsGiveTheProduct :
    List.length [ones, ones] = LimbCount.n2.count ∧ List.length [ones, 0] = LimbCount.n2.count := by decide
/-- Operands of the bound's hypotheses, and a column total there is. -/
theorem witness_ColumnTotalsAreBounded :
    List.length [ones, ones] = LimbCount.n2.count ∧
      (columnTotals 2 [ones, ones] [ones, ones] 4 0 Accumulator.zero).length = 4 := by decide
/-- NEG: Vone holds 1 and is not Vd; CLR: a register that is not written. -/
theorem witness_PseudoInstructionsCompute :
    (twoRegs .n2 [5, 0] [1, 0]).WF ∧ (twoRegs .n2 [5, 0] [1, 0]).regVal 1 = 1 ∧ (1 : Reg) ≠ 2 ∧
      (twoRegs .n2 [5, 0] [1, 0]).isWritten 2 = false :=
  ⟨fun r => by fin_cases r <;> rfl, by decide, by decide, by decide⟩
theorem witness_SourceFormAssemblesToTheCommand : (Instr.mulf 4 1 5 0).wellFormed = true := by decide

end Sys2Proof.Tests
end

section
/-! SUPPORT. Scope (R5, R6, R11, R15, R23, R80): every register keeps its N limbs, the instance keeps its N, and a step
stops on no value. -/

namespace Sys2Proof.Machine

/-! ### What a step is, by the host's list -/

theorem step_of_pending_nil {s : State} (hp : s.pending = []) : step s = .next s := by
  simp only [step, hostEvent, hp]

theorem step_of_pending_cons {s : State} {op : PortOp} {rest : List PortOp} (hp : s.pending = op :: rest) :
    step s = perform op (s.withPending rest) := by
  simp only [step, hostEvent, hp]

/-! ### Which port operations complete -/

/-- An issued word always completes, legal or not (R80, R82). -/
theorem issue_completes (cmd : CommandWord) (s : State) : ∃ t, issue cmd s = .next t := by
  unfold issue
  split
  · exact ⟨_, rfl⟩
  · next i _ => exact exec_completes i s.nextCommand

/-- The one operation that does not complete is a host write of other than N limbs (log 7). -/
theorem perform_completes_or_refuses (op : PortOp) (s : State) :
    (∃ t, perform op s = .next t) ∨
      (∃ r v, op = .writeReg r v ∧ v.length ≠ s.limbCount.count ∧ perform op s = .refused (.partialTransfer r)) := by
  cases op with
  | writeReg r v =>
    by_cases hv : v.length = s.limbCount.count
    · exact .inl ⟨_, if_pos hv⟩
    · exact .inr ⟨r, v, rfl, hv, if_neg hv⟩
  | readReg r => exact .inl ⟨_, rfl⟩
  | readStatus => exact .inl ⟨_, rfl⟩
  | issue cmd => exact .inl (issue_completes cmd s)
  | reset => exact .inl ⟨_, rfl⟩

/-! ### The invariant: each part for a command, then for a step -/

theorem resetOf_wf (n : LimbCount) : (State.resetOf n).WF := fun r => by
  rw [readReg_resetOf, length_unspecifiedValue]
  rfl

theorem exec_wf {i : Instr} {s t : State} (hs : s.WF) (h : exec i s = .next t) : t.WF := by
  rcases exec_shape i s with ⟨rd, v, f, -, he, hv, -⟩ | ⟨f, -, -, he⟩ | ⟨rd, rd2, v, v2, -, -, -, he, hv, hv2⟩ | ⟨-, he⟩ <;>
    cases h.symm.trans he
  · exact (hs.writeReg rd (hv hs)).setFlag f
  · exact hs.setFlag f
  · exact (hs.writeReg rd hv).writeReg rd2 hv2
  · exact hs.takeIllegalCommand

/-- A command keeps the instance's N, in every state and even for the command no word spells (R6). -/
theorem exec_limbCount {i : Instr} {s t : State} (h : exec i s = .next t) : t.limbCount = s.limbCount := by
  rcases exec_shape i s with ⟨_, _, _, -, he, -⟩ | ⟨_, -, -, he⟩ | ⟨_, _, _, _, -, -, -, he, -⟩ | ⟨-, he⟩ <;>
    cases h.symm.trans he <;> rfl

theorem step_wf {s t : State} (hs : s.WF) (h : step s = .next t) : t.WF := by
  rcases step_cases h with ⟨-, rfl⟩ | ⟨r, v, rest, -, hv, rfl⟩ | ⟨r, rest, -, rfl⟩ | ⟨rest, -, rfl⟩ |
    ⟨_, _, rest, -, -, rfl⟩ | ⟨_, i, rest, -, -, he⟩ | ⟨rest, -, rfl⟩
  · exact hs
  · exact (hs.withPending rest).writeReg r hv
  · exact (hs.withPending rest).reply _
  · exact (hs.withPending rest).reply _
  · exact (hs.withPending rest).nextCommand.takeIllegalCommand
  · exact exec_wf (hs.withPending rest).nextCommand he
  · exact resetBlock_wf _

theorem step_limbCount {s t : State} (h : step s = .next t) : t.limbCount = s.limbCount := by
  rcases step_cases h with ⟨-, rfl⟩ | ⟨_, _, _, -, -, rfl⟩ | ⟨_, _, -, rfl⟩ | ⟨_, -, rfl⟩ | ⟨_, _, _, -, -, rfl⟩ |
    ⟨_, _, rest, -, -, he⟩ | ⟨_, -, rfl⟩
  · rfl
  · rfl
  · rfl
  · rfl
  · rfl
  · calc t.limbCount = (s.withPending rest).nextCommand.limbCount := exec_limbCount he
      _ = s.limbCount := rfl
  · rfl

/-- N limbs are W bits (R5, R6). -/
theorem State.WF.regVal_lt {s : State} (hs : s.WF) (r : Reg) : s.regVal r < 2 ^ s.width := by
  have h := val_lt (s.readReg r)
  rwa [hs r] at h

/-! ### The statements -/

/-- Settles O16: by the cases of what a step can do; every value written has N limbs. -/
theorem stepKeepsWellFormed : Obligations.StepKeepsWellFormed := fun _ _ => step_wf

/-- Settles O18: no case of a step touches N, and the state it answers is well formed, which bounds each register. -/
theorem stepKeepsTheInstanceWidth : Obligations.StepKeepsTheInstanceWidth := by
  intro s t hs h
  have hN : t.limbCount = s.limbCount := step_limbCount h
  have hW : t.width = s.width := congrArg LimbCount.width hN
  exact ⟨hN, fun r => hW ▸ (step_wf hs h).regVal_lt r⟩

/-- Settles O23: a step is idle or performs one port operation, and only a partial transfer does not complete. -/
theorem stepStopsOnNoValue : Obligations.StepStopsOnNoValue := by
  intro s
  cases hp : s.pending with
  | nil => exact .inl ⟨s, step_of_pending_nil hp⟩
  | cons op rest =>
    rw [step_of_pending_cons hp]
    rcases perform_completes_or_refuses op (s.withPending rest) with hnext | ⟨r, v, rfl, hv, hrefused⟩
    · exact .inl hnext
    · exact .inr ⟨r, v, rest, rfl, hv, hrefused⟩

/-- Settles O17: each register holds that reset's unspecified value, which has N limbs by its definition. -/
theorem resetIsWellFormed : Obligations.ResetIsWellFormed := ⟨resetOf_wf, resetOf_wf Config.instanceLimbs⟩

end Sys2Proof.Machine
end

section
/-! SUPPORT. The state (R11, R15 to R20, R22, R23, R83): STATUS and the reset state, what a step may change and by what, and
that a command depends on its sources only and a checked run on written registers only. -/

namespace Sys2Proof

/-! ### A decoded word is the word of its command, so a fact about an instruction is one about its word (R37, R41, R42) -/

theorem encode_of_decodeThreeRegister {mk : Reg → Reg → Reg → Instr} {w : CommandWord} {i : Instr} {opc : Nat}
    (hrsv : rsvField w = 0) (hopc : (opcField w).toNat = opc)
    (h : decodeThreeRegister mk w = .ok i)
    (hmk : ∀ rd rs1 rs2, (mk rd rs1 rs2).wellFormed = true ∧ encode (mk rd rs1 rs2) = assembleFields opc rd rs1 rs2 0) :
    i.wellFormed = true ∧ encode i = w := by
  unfold decodeThreeRegister at h
  split at h
  · next hrd2 =>
    cases h
    refine ⟨(hmk _ _ _).1, ?_⟩
    rw [(hmk _ _ _).2, ← hopc, ← hrd2, assembleFields_fields hrsv]
  · cases h

theorem encode_of_decodeCompare {mk : Reg → Reg → Instr} {w : CommandWord} {i : Instr} {opc : Nat}
    (hrsv : rsvField w = 0) (hopc : (opcField w).toNat = opc)
    (h : decodeCompare mk w = .ok i)
    (hmk : ∀ rs1 rs2, (mk rs1 rs2).wellFormed = true ∧ encode (mk rs1 rs2) = assembleFields opc 0 rs1 rs2 0) :
    i.wellFormed = true ∧ encode i = w := by
  unfold decodeCompare at h
  split at h
  · next hz =>
    obtain ⟨hrd2, hrd⟩ := hz
    cases h
    refine ⟨(hmk _ _).1, ?_⟩
    have hw := assembleFields_fields hrsv
    rw [hopc, hrd, hrd2] at hw
    rw [(hmk _ _).2, hw]
  · cases h

theorem encode_of_decodeNot {w : CommandWord} {i : Instr} (hrsv : rsvField w = 0) (hopc : (opcField w).toNat = 0x0B)
    (h : decodeOneSource .not w = .ok i) : i.wellFormed = true ∧ encode i = w := by
  unfold decodeOneSource at h
  split at h
  · next hz =>
    obtain ⟨hrd2, hrs2⟩ := hz
    cases h
    refine ⟨rfl, ?_⟩
    have hw := assembleFields_fields hrsv
    rwa [hopc, hrs2, hrd2] at hw
  · cases h

theorem encode_of_decodeMulf {w : CommandWord} {i : Instr} (hrsv : rsvField w = 0) (hopc : (opcField w).toNat = 0x0D)
    (h : decodeTwoDestination .mulf w = .ok i) : i.wellFormed = true ∧ encode i = w := by
  unfold decodeTwoDestination at h
  split at h
  · cases h
  · next hne =>
    cases h
    refine ⟨bne_iff_ne.mpr hne, ?_⟩
    have hw := assembleFields_fields hrsv
    rwa [hopc] at hw

/-- By the rows of the opcode map: no bit of a legal word is dropped (R37, R40, R42). -/
theorem wellFormed_and_encode_of_decode {w : CommandWord} {i : Instr} (h : decode w = .ok i) :
    i.wellFormed = true ∧ encode i = w := by
  unfold decode at h
  split at h
  · cases h
  · next hrsv =>
    have hrsv := not_not.mp hrsv
    split at h
    · next hopc => exact encode_of_decodeThreeRegister hrsv hopc h fun _ _ _ => ⟨rfl, rfl⟩
    · next hopc => exact encode_of_decodeThreeRegister hrsv hopc h fun _ _ _ => ⟨rfl, rfl⟩
    · next hopc => exact encode_of_decodeCompare hrsv hopc h fun _ _ => ⟨rfl, rfl⟩
    · next hopc => exact encode_of_decodeCompare hrsv hopc h fun _ _ => ⟨rfl, rfl⟩
    · next hopc => exact encode_of_decodeCompare hrsv hopc h fun _ _ => ⟨rfl, rfl⟩
    · next hopc => exact encode_of_decodeCompare hrsv hopc h fun _ _ => ⟨rfl, rfl⟩
    · next hopc => exact encode_of_decodeCompare hrsv hopc h fun _ _ => ⟨rfl, rfl⟩
    · next hopc => exact encode_of_decodeThreeRegister hrsv hopc h fun _ _ _ => ⟨rfl, rfl⟩
    · next hopc => exact encode_of_decodeThreeRegister hrsv hopc h fun _ _ _ => ⟨rfl, rfl⟩
    · next hopc => exact encode_of_decodeThreeRegister hrsv hopc h fun _ _ _ => ⟨rfl, rfl⟩
    · next hopc => exact encode_of_decodeNot hrsv hopc h
    · next hopc => exact encode_of_decodeThreeRegister hrsv hopc h fun _ _ _ => ⟨rfl, rfl⟩
    · next hopc => exact encode_of_decodeMulf hrsv hopc h
    · next hopc => exact encode_of_decodeThreeRegister hrsv hopc h fun _ _ _ => ⟨rfl, rfl⟩
    · next hopc => exact encode_of_decodeThreeRegister hrsv hopc h fun _ _ _ => ⟨rfl, rfl⟩
    · cases h

end Sys2Proof

namespace Sys2Proof.Machine

/-- R17's table: a word that decodes to a command that writes FLAG has the opcode of ADD, SUB, a compare or MUL. -/
theorem opcode_of_writesFlag {w : CommandWord} {i : Instr} (h : decode w = .ok i) (hf : writesFlag i = true) :
    (opcField w).toNat ∈ [0x01, 0x02, 0x03, 0x04, 0x05, 0x06, 0x07, 0x0C] := by
  obtain ⟨-, rfl⟩ := wellFormed_and_encode_of_decode h
  cases i with
  | add | sub | cmpeq | cmplt | cmplte | cmpgt | cmpgte | mul => rw [encode, opcField_assembleFields (by decide)]; decide
  | and | or | xor | not | mulf | shl | shr => cases hf

/-! ### The frame of a command, in every state: what `exec_shape` leaves alone -/

theorem exec_keeps_other_registers {i : Instr} {s t : State} (h : exec i s = .next t) {r : Reg} (hr : r ∉ destinations i) :
    t.readReg r = s.readReg r ∧ t.isWritten r = s.isWritten r := by
  rcases exec_shape i s with ⟨rd, v, f, hd, he, -⟩ | ⟨f, -, -, he⟩ | ⟨rd, rd2, v, v2, hd, -, -, he, -⟩ | ⟨-, he⟩ <;>
    cases h.symm.trans he
  · have hne : r ≠ rd := by simpa [hd] using hr
    exact ⟨readReg_writeReg_of_ne s v hne, isWritten_writeReg_of_ne s v hne⟩
  · exact ⟨rfl, rfl⟩
  · obtain ⟨hne, hne2⟩ : r ≠ rd ∧ r ≠ rd2 := by simpa [hd] using hr
    simp [readReg_writeReg, isWritten_writeReg, hne, hne2]
  · exact ⟨rfl, rfl⟩

theorem exec_keeps_flag {i : Instr} {s t : State} (h : exec i s = .next t) (hf : writesFlag i = false) :
    t.flag = s.flag := by
  rcases exec_shape i s with ⟨rd, v, f, -, he, -, hkeep⟩ | ⟨f, -, hw, -⟩ | ⟨rd, rd2, v, v2, -, -, -, he, -⟩ | ⟨-, he⟩
  · cases h.symm.trans he
    exact hkeep hf
  · cases hf.symm.trans hw
  · cases h.symm.trans he
    rfl
  · cases h.symm.trans he
    rfl

theorem exec_keeps_ill {i : Instr} {s t : State} (hi : i.wellFormed = true) (h : exec i s = .next t) : t.ill = s.ill := by
  rcases exec_shape i s with ⟨_, _, _, -, he, -⟩ | ⟨_, -, -, he⟩ | ⟨_, _, _, _, -, -, -, he, -⟩ | ⟨hbad, -⟩
  · cases h.symm.trans he
    rfl
  · cases h.symm.trans he
    rfl
  · cases h.symm.trans he
    rfl
  · cases hi.symm.trans hbad

theorem exec_keeps_cmdIndex {i : Instr} {s t : State} (h : exec i s = .next t) : t.cmdIndex = s.cmdIndex := by
  rcases exec_shape i s with ⟨_, _, _, -, he, -⟩ | ⟨_, -, -, he⟩ | ⟨_, _, _, _, -, -, -, he, -⟩ | ⟨-, he⟩ <;>
    cases h.symm.trans he <;> rfl

/-! ### Two states that agree on a command's sources (R11, R22) -/

theorem twoSources_congr {s s' : State} {rs1 rs2 : Reg} (h : ∀ r ∈ [rs1, rs2], s.readReg r = s'.readReg r) :
    s'.twoSources rs1 rs2 = s.twoSources rs1 rs2 := by
  rw [State.twoSources, State.twoSources, h rs1 (by simp), h rs2 (by simp)]

theorem product_congr {s s' : State} {rs1 rs2 : Reg} (hN : s.limbCount = s'.limbCount)
    (h : ∀ r ∈ [rs1, rs2], s.readReg r = s'.readReg r) : s'.product rs1 rs2 = s.product rs1 rs2 := by
  rw [State.product, State.product, twoSources_congr h, hN]

/-- What `exec_shape` says, of two states that agree on N and on the sources: the same writes of the same values. -/
theorem exec_shape_of_sources_agree {i : Instr} {s s' : State} (hN : s.limbCount = s'.limbCount)
    (h : ∀ r ∈ sources i, s.readReg r = s'.readReg r) :
    (∃ rd v f, destinations i = [rd] ∧ exec i s = .next ((s.writeReg rd v).setFlag f) ∧
        exec i s' = .next ((s'.writeReg rd v).setFlag f)) ∨
      (∃ rd v, destinations i = [rd] ∧ writesFlag i = false ∧ exec i s = .next (s.writeReg rd v) ∧
        exec i s' = .next (s'.writeReg rd v)) ∨
      (∃ f, destinations i = [] ∧ exec i s = .next (s.setFlag f) ∧ exec i s' = .next (s'.setFlag f)) ∨
      (∃ rd rd2 v v2, destinations i = [rd, rd2] ∧ writesFlag i = false ∧
        exec i s = .next ((s.writeReg rd v).writeReg rd2 v2) ∧
        exec i s' = .next ((s'.writeReg rd v).writeReg rd2 v2)) ∨
      (i.wellFormed = false ∧ exec i s = .next s.takeIllegalCommand ∧ exec i s' = .next s'.takeIllegalCommand) := by
  cases i with
  | add rd rs1 rs2 => exact .inl ⟨rd, _, _, rfl, rfl, by rw [exec, execAdd, twoSources_congr h]⟩
  | sub rd rs1 rs2 => exact .inl ⟨rd, _, _, rfl, rfl, by rw [exec, execSub, twoSources_congr h]⟩
  | cmpeq rs1 rs2 => exact .inr (.inr (.inl ⟨_, rfl, rfl, by rw [exec, execCmpeq, twoSources_congr h]⟩))
  | cmplt rs1 rs2 => exact .inr (.inr (.inl ⟨_, rfl, rfl, by rw [exec, execCmplt, twoSources_congr h]⟩))
  | cmplte rs1 rs2 => exact .inr (.inr (.inl ⟨_, rfl, rfl, by rw [exec, execCmplte, twoSources_congr h]⟩))
  | cmpgt rs1 rs2 => exact .inr (.inr (.inl ⟨_, rfl, rfl, by rw [exec, execCmpgt, twoSources_congr h]⟩))
  | cmpgte rs1 rs2 => exact .inr (.inr (.inl ⟨_, rfl, rfl, by rw [exec, execCmpgte, twoSources_congr h]⟩))
  | and rd rs1 rs2 => exact .inr (.inl ⟨rd, _, rfl, rfl, rfl, by rw [exec, execAnd, twoSources_congr h]⟩)
  | or rd rs1 rs2 => exact .inr (.inl ⟨rd, _, rfl, rfl, rfl, by rw [exec, execOr, twoSources_congr h]⟩)
  | xor rd rs1 rs2 => exact .inr (.inl ⟨rd, _, rfl, rfl, rfl, by rw [exec, execXor, twoSources_congr h]⟩)
  | not rd rs1 => exact .inr (.inl ⟨rd, _, rfl, rfl, rfl, by rw [exec, execNot, h rs1 (by simp [sources])]⟩)
  | mul rd rs1 rs2 => exact .inl ⟨rd, _, _, rfl, rfl, by rw [exec, execMul, product_congr hN h, hN]⟩
  | mulf rd rd2 rs1 rs2 =>
    by_cases hd : rd = rd2
    · exact .inr (.inr (.inr (.inr ⟨by simp [Instr.wellFormed, hd], if_pos hd, if_pos hd⟩)))
    · refine .inr (.inr (.inr (.inl ⟨rd, rd2, _, _, rfl, rfl, if_neg hd, ?_⟩)))
      rw [exec, execMulf, product_congr hN h, if_neg hd, hN]
  | shl rd rs1 rs2 => exact .inr (.inl ⟨rd, _, rfl, rfl, rfl, by rw [exec, execShl, twoSources_congr h, hN]⟩)
  | shr rd rs1 rs2 => exact .inr (.inl ⟨rd, _, rfl, rfl, rfl, by rw [exec, execShr, twoSources_congr h, hN]⟩)


/-! ### `AgreeOnWritten` is kept by every operation over the state (R16, R83) -/

namespace AgreeOnWritten
variable {s s' : State} (h : AgreeOnWritten s s')
include h

theorem writeReg (r : Reg) (v : Value) : AgreeOnWritten (s.writeReg r v) (s'.writeReg r v) where
  limbCount := h.limbCount
  written r' := by rw [isWritten_writeReg, isWritten_writeReg, h.written]
  regs r' hr' := by
    rw [readReg_writeReg, readReg_writeReg]
    split
    · rfl
    · next hne => exact h.regs r' (by rwa [isWritten_writeReg_of_ne s v hne] at hr')
  flag := h.flag
  ill := h.ill
  cmdIndex := h.cmdIndex
  pending := h.pending
  replies := h.replies

theorem setFlag (b : Bool) : AgreeOnWritten (s.setFlag b) (s'.setFlag b) :=
  { h with flag := rfl }

theorem takeIllegalCommand : AgreeOnWritten s.takeIllegalCommand s'.takeIllegalCommand :=
  { h with ill := rfl }

theorem reply (m : PortReply) : AgreeOnWritten (s.reply m) (s'.reply m) :=
  { h with replies := congrArg (m :: ·) h.replies }

theorem nextCommand : AgreeOnWritten s.nextCommand s'.nextCommand :=
  { h with cmdIndex := congrArg (· + 1) h.cmdIndex }

theorem withPending (ops : List PortOp) : AgreeOnWritten (s.withPending ops) (s'.withPending ops) :=
  { h with pending := rfl }

/-- Reset() leaves no register written, so the two resets' unspecified values need not agree (R23, R95). -/
theorem resetBlock : AgreeOnWritten s.resetBlock s'.resetBlock where
  limbCount := h.limbCount
  written r := by rw [isWritten_resetBlock, isWritten_resetBlock]
  regs r hr := by simp at hr
  flag := rfl
  ill := rfl
  cmdIndex := h.cmdIndex
  pending := h.pending
  replies := h.replies

theorem statusWord : s'.statusWord = s.statusWord := by
  rw [State.statusWord, State.statusWord, h.flag, h.ill]

theorem firstUnwritten (rs : List Reg) : s'.firstUnwritten rs = s.firstUnwritten rs := by
  have hfun : s'.isWritten = s.isWritten := funext h.written
  rw [State.firstUnwritten, State.firstUnwritten, hfun]

/-- Which exception an operation raises depends on the marks alone (R83, R84). -/
theorem raised (op : PortOp) : raised op s' = raised op s := by
  cases op with
  | writeReg | readStatus | reset => rfl
  | readReg r => rw [Machine.raised, Machine.raised, h.firstUnwritten]
  | issue cmd =>
    cases hd : decode cmd with
    | error e => simp only [Machine.raised, hd]
    | ok i => simp only [Machine.raised, hd, h.firstUnwritten]

end AgreeOnWritten

/-! ### What a checked step is, by the host's list and the exception raised -/

theorem firstUnwritten_eq_none {s : State} {rs : List Reg} :
    s.firstUnwritten rs = none ↔ ∀ r ∈ rs, s.isWritten r = true := by
  simp [State.firstUnwritten]

theorem checkedStep_of_pending_nil {s : State} (hp : s.pending = []) : checkedStep s = .next s := by
  simp only [checkedStep, checkedHostEvent, hp]

theorem checkedStep_of_unwritten {s : State} {op : PortOp} {rest : List PortOp} {r : Reg}
    (hp : s.pending = op :: rest) (hr : raised op s = some (.unwritten r)) : checkedStep s = .fault (.unwritten r) := by
  simp only [checkedStep, checkedHostEvent, hp, hr]

theorem checkedStep_of_not_unwritten {s : State} {op : PortOp} {rest : List PortOp}
    (hp : s.pending = op :: rest) (hr : ∀ r, raised op s ≠ some (.unwritten r)) :
    checkedStep s = perform op (s.withPending rest) := by
  simp only [checkedStep, checkedHostEvent, hp]
  split
  · next r hraised => exact absurd hraised (hr r)
  · rfl
  · rfl

/-- An operation that passes the check reads written registers only (R83). -/
theorem isWritten_of_not_unwritten_readReg {s : State} {r : Reg} (h : ∀ r', raised (.readReg r) s ≠ some (.unwritten r')) :
    s.isWritten r = true := by
  by_contra hr
  exact h r (by simp [raised, State.firstUnwritten, hr])

theorem isWritten_of_not_unwritten_issue {s : State} {cmd : CommandWord} {i : Instr} (hd : decode cmd = .ok i)
    (h : ∀ r, raised (.issue cmd) s ≠ some (.unwritten r)) : ∀ r ∈ sources i, s.isWritten r = true := by
  refine firstUnwritten_eq_none.mp (Option.eq_none_iff_forall_ne_some.mpr fun r hr => h r ?_)
  simp only [raised, hd, hr, Option.map_some]

/-! ### The checked reading of two agreeing states -/

/-- Two outcomes are alike: next states that agree on everything written, or the same stop. -/
inductive OutcomesAgree : Result → Result → Prop where
  | next {t t' : State} (h : AgreeOnWritten t t') : OutcomesAgree (.next t) (.next t')
  | fault (f : Fault) : OutcomesAgree (.fault f) (.fault f)
  | refused (r : Refusal) : OutcomesAgree (.refused r) (.refused r)

theorem exec_agree {i : Instr} {s s' : State} (h : AgreeOnWritten s s') (hw : ∀ r ∈ sources i, s.isWritten r = true) :
    OutcomesAgree (exec i s) (exec i s') := by
  rcases exec_shape_of_sources_agree h.limbCount.symm fun r hr => (h.regs r (hw r hr)).symm with
    ⟨rd, v, f, -, he, he'⟩ | ⟨rd, v, -, -, he, he'⟩ | ⟨f, -, he, he'⟩ | ⟨rd, rd2, v, v2, -, -, he, he'⟩ | ⟨-, he, he'⟩ <;>
    rw [he, he']
  · exact .next ((h.writeReg rd v).setFlag f)
  · exact .next (h.writeReg rd v)
  · exact .next (h.setFlag f)
  · exact .next ((h.writeReg rd v).writeReg rd2 v2)
  · exact .next h.takeIllegalCommand

/-- The case per port operation: only ReadReg and a legal Issue read registers, and those passed the check (R26, R83). -/
theorem perform_agree {op : PortOp} {s s' : State} (h : AgreeOnWritten s s')
    (hr : ∀ r, raised op s ≠ some (.unwritten r)) : OutcomesAgree (perform op s) (perform op s') := by
  cases op with
  | writeReg r v =>
    simp only [perform, h.limbCount]
    split
    · exact .next (h.writeReg r v)
    · exact .refused _
  | readReg r =>
    have hv : s'.readReg r = s.readReg r := h.regs r (isWritten_of_not_unwritten_readReg hr)
    simp only [perform, hv]
    exact .next (h.reply _)
  | readStatus =>
    simp only [perform, h.statusWord]
    exact .next (h.reply _)
  | issue cmd =>
    cases hd : decode cmd with
    | error e =>
      simp only [perform, issue, hd]
      exact .next h.nextCommand.takeIllegalCommand
    | ok i =>
      simp only [perform, issue, hd]
      exact exec_agree h.nextCommand (isWritten_of_not_unwritten_issue hd hr)
  | reset => exact .next h.resetBlock

theorem checkedStep_agree {s s' : State} (h : AgreeOnWritten s s') : OutcomesAgree (checkedStep s) (checkedStep s') := by
  cases hp : s.pending with
  | nil =>
    rw [checkedStep_of_pending_nil hp, checkedStep_of_pending_nil (h.pending.trans hp)]
    exact .next h
  | cons op rest =>
    have hp' : s'.pending = op :: rest := h.pending.trans hp
    by_cases hr : ∃ r, raised op s = some (.unwritten r)
    · obtain ⟨r, hr⟩ := hr
      rw [checkedStep_of_unwritten hp hr, checkedStep_of_unwritten hp' ((h.raised op).trans hr)]
      exact .fault _
    · have hr : ∀ r, raised op s ≠ some (.unwritten r) := not_exists.mp hr
      rw [checkedStep_of_not_unwritten hp hr, checkedStep_of_not_unwritten hp' (h.raised op ▸ hr)]
      exact perform_agree (h.withPending rest) hr

theorem checkedRun_agree (k : Nat) {s s' : State} (h : AgreeOnWritten s s') :
    OutcomesAgree (checkedRun k s) (checkedRun k s') := by
  induction k generalizing s s' with
  | zero => exact .next h
  | succ k ih =>
    have hstep := checkedStep_agree h
    unfold checkedRun
    generalize checkedStep s = o, checkedStep s' = o' at hstep
    cases hstep with
    | next ht => exact ih ht
    | fault f => exact .fault f
    | refused r => exact .refused r

/-! ### The statements -/

/-- Settles O28: by induction over the run; each checked step answers alike, since it reads written registers only. -/
theorem checkedRunIgnoresUnwrittenContents : Obligations.CheckedRunIgnoresUnwrittenContents := by
  intro k s s' h
  have hrun := checkedRun_agree k h
  generalize checkedRun k s = o, checkedRun k s' = o' at hrun
  cases hrun with
  | next ht => exact ⟨fun t e => by cases e; exact ⟨_, rfl, ht⟩, fun f e => by cases e⟩
  | fault f => exact ⟨fun t e => (by cases e), fun g e => e⟩
  | refused r => exact ⟨fun t e => (by cases e), fun f e => by cases e⟩

/-- Settles O13: the word is FLAG + 2·ILL, which is below 4. -/
theorem statusShowsFlagAndIll : Obligations.StatusShowsFlagAndIll := by
  intro s
  rw [State.statusWord]
  refine ⟨?_, ?_, fun k hk => ?_⟩
  · cases s.flag <;> cases s.ill <;> decide
  · cases s.flag <;> cases s.ill <;> decide
  · have hsmall : s.flag.toNat + 2 * s.ill.toNat < 2 ^ k :=
      calc s.flag.toNat + 2 * s.ill.toNat < 2 ^ 2 := by have := s.flag.toNat_lt; have := s.ill.toNat_lt; omega
        _ ≤ 2 ^ k := Nat.pow_le_pow_right (by decide) hk
    rw [BitVec.getLsbD_ofNat, Nat.testBit_lt_two_pow hsmall, Bool.and_false]

/-- Settles O19: by the cases of a step; in each but the three named, register and mark are kept. -/
theorem registersChangeOnlyAsDestinations : Obligations.RegistersChangeOnlyAsDestinations := by
  intro s t r h hne
  have changed : ¬ (t.readReg r = s.readReg r ∧ t.isWritten r = s.isWritten r) := fun ⟨hv, hm⟩ =>
    hne.elim (· hv) (· hm)
  rcases step_cases h with ⟨-, rfl⟩ | ⟨r', v, rest, hp, -, rfl⟩ | ⟨_, _, -, rfl⟩ | ⟨_, -, rfl⟩ | ⟨_, _, _, -, -, rfl⟩ |
    ⟨w, i, rest, hp, hd, he⟩ | ⟨rest, hp, -⟩
  · exact absurd ⟨rfl, rfl⟩ changed
  · refine .inl ⟨v, rest, ?_⟩
    by_cases hr : r = r'
    · rw [hp, hr]
    · exact absurd ⟨readReg_writeReg_of_ne _ v hr, isWritten_writeReg_of_ne _ v hr⟩ changed
  · exact absurd ⟨rfl, rfl⟩ changed
  · exact absurd ⟨rfl, rfl⟩ changed
  · exact absurd ⟨rfl, rfl⟩ changed
  · exact .inr (.inl ⟨w, i, rest, hp, hd, by_contra fun hr => changed (exec_keeps_other_registers he hr)⟩)
  · exact .inr (.inr ⟨rest, hp⟩)

/-- Settles O20: by the cases of a step; a command that changes FLAG is one that writes it, and R17 lists its opcode. -/
theorem flagChangesOnlyByFlagCommands : Obligations.FlagChangesOnlyByFlagCommands := by
  intro s t h changed
  rcases step_cases h with ⟨-, rfl⟩ | ⟨_, _, _, -, -, rfl⟩ | ⟨_, _, -, rfl⟩ | ⟨_, -, rfl⟩ | ⟨_, _, _, -, -, rfl⟩ |
    ⟨w, i, rest, hp, hd, he⟩ | ⟨rest, hp, -⟩
  · exact absurd rfl changed
  · exact absurd rfl changed
  · exact absurd rfl changed
  · exact absurd rfl changed
  · exact absurd rfl changed
  · cases hf : writesFlag i with
    | true => exact .inr ⟨w, i, rest, hp, hd, opcode_of_writesFlag hd hf⟩
    | false => exact absurd (exec_keeps_flag he hf) changed
  · exact .inl ⟨rest, hp⟩

/-- Settles O21: by the cases of a step; a decoded command is well formed, so it never sets ILL itself. -/
theorem illIsSetByIllegalWordsAndSticky : Obligations.IllIsSetByIllegalWordsAndSticky := by
  intro s t h
  rcases step_cases h with ⟨hp, rfl⟩ | ⟨_, _, _, hp, -, rfl⟩ | ⟨_, _, hp, rfl⟩ | ⟨_, hp, rfl⟩ | ⟨_, _, _, hp, hd, rfl⟩ |
    ⟨w, i, rest, hp, hd, he⟩ | ⟨rest, hp, rfl⟩
  · simp [hp]
  · simp [hp]
  · simp [hp]
  · simp [hp]
  · simp [hp, hd]
  · have hill := exec_keeps_ill (wellFormed_and_encode_of_decode hd).1 he
    simp [hp, hd, hill]
  · simp [hp]

/-- Settles O22: by the cases of a step; only the two that issue a word move the index. -/
theorem commandIndexCountsCommands : Obligations.CommandIndexCountsCommands := by
  intro s t h
  rcases step_cases h with ⟨hp, rfl⟩ | ⟨_, _, _, hp, -, rfl⟩ | ⟨_, _, hp, rfl⟩ | ⟨_, hp, rfl⟩ | ⟨_, _, _, hp, -, rfl⟩ |
    ⟨w, i, rest, hp, -, he⟩ | ⟨rest, hp, rfl⟩
  · simp [hp]
  · simp [hp]
  · simp [hp]
  · simp [hp]
  · simp [hp]
  · have hindex := exec_keeps_cmdIndex he
    simp [hp, hindex]
  · simp [hp]

/-- Settles O24: the two runs make the same writes of the same values. -/
theorem resultsDependOnSourcesOnly : Obligations.ResultsDependOnSourcesOnly := by
  intro i s s' hi hN hsrc
  rcases exec_shape_of_sources_agree hN hsrc with ⟨rd, v, f, hd, he, he'⟩ | ⟨rd, v, hd, hf, he, he'⟩ | ⟨f, hd, he, he'⟩ |
    ⟨rd, rd2, v, v2, hd, hf, he, he'⟩ | ⟨hbad, -⟩
  · exact ⟨_, _, he, he', by simp [hd], fun _ => rfl⟩
  · exact ⟨_, _, he, he', by simp [hd], by simp [hf]⟩
  · exact ⟨_, _, he, he', by simp [hd], fun _ => rfl⟩
  · exact ⟨_, _, he, he', by simp [hd, readReg_writeReg], by simp [hf]⟩
  · cases hi.symm.trans hbad

/-- Settles O15: the fields are those `State.resetOf` gives, and no mark is set in it. -/
theorem resetStateIsTheSpecs : Obligations.ResetStateIsTheSpecs :=
  ⟨fun n => ⟨rfl, rfl, rfl, rfl, isWritten_resetOf n⟩, rfl⟩

end Sys2Proof.Machine
end

section
/-! SUPPORT. The host port's transfers (R15, R16, R26, R27): one WriteReg writes one whole register, a partial one is refused,
and the two reads change nothing of the block. -/

namespace Sys2Proof.Machine

/-! ### The two ways a host write comes out (R27) -/

theorem perform_writeReg_of_whole {s : State} {v : Value} (r : Reg) (hv : v.length = s.limbCount.count) :
    perform (.writeReg r v) s = .next (s.writeReg r v) := if_pos hv

theorem perform_writeReg_of_partial {s : State} {v : Value} (r : Reg) (hv : v.length ≠ s.limbCount.count) :
    perform (.writeReg r v) s = .refused (.partialTransfer r) := if_neg hv

/-! ### The statements -/

/-- Settles O10: the step is `State.writeReg` once the host's list has moved on, and that writes one register only. -/
theorem writeRegWritesOneWholeRegister : Obligations.WriteRegWritesOneWholeRegister := by
  intro s r v rest hp hv
  have hstep : step s = .next ((s.withPending rest).writeReg r v) :=
    (step_of_pending_cons hp).trans (perform_writeReg_of_whole r hv)
  exact ⟨_, hstep, readReg_writeReg_self _ r v, rfl, rfl, writesOnly_writeReg (s.withPending rest) r hv⟩

/-- Settles O11: the length is checked against the instance's N before anything is written. -/
theorem partialTransferIsRefused : Obligations.PartialTransferIsRefused := by
  intro s r v rest hp hv
  exact (step_of_pending_cons hp).trans (perform_writeReg_of_partial r hv)

/-- Settles O12: each read is a `State.reply`, and taking it off the host's list changes neither a register nor STATUS. -/
theorem readsReturnAndChangeNothing : Obligations.ReadsReturnAndChangeNothing :=
  ⟨fun _ _ _ hp => step_of_pending_cons hp, fun _ _ hp => step_of_pending_cons hp⟩

end Sys2Proof.Machine
end

section
/-! SUPPORT. The command word (R37, R40 to R43): encode and decode are each other's inverse, the legal words are the decoded
ones, and each command's mask and match select it. -/

namespace Sys2Proof

/-! ### Decode and encode -/

/-- By the family RoundTrip, one word per row of the opcode map. -/
theorem decode_encode {i : Instr} (hi : i.wellFormed = true) : decode (encode i) = .ok i := by
  cases i with
  | add rd rs1 rs2 => exact Laws.RoundTrip.add rd rs1 rs2 hi
  | sub rd rs1 rs2 => exact Laws.RoundTrip.sub rd rs1 rs2 hi
  | cmpeq rs1 rs2 => exact Laws.RoundTrip.cmpeq rs1 rs2 hi
  | cmplt rs1 rs2 => exact Laws.RoundTrip.cmplt rs1 rs2 hi
  | cmplte rs1 rs2 => exact Laws.RoundTrip.cmplte rs1 rs2 hi
  | cmpgt rs1 rs2 => exact Laws.RoundTrip.cmpgt rs1 rs2 hi
  | cmpgte rs1 rs2 => exact Laws.RoundTrip.cmpgte rs1 rs2 hi
  | and rd rs1 rs2 => exact Laws.RoundTrip.and rd rs1 rs2 hi
  | or rd rs1 rs2 => exact Laws.RoundTrip.or rd rs1 rs2 hi
  | xor rd rs1 rs2 => exact Laws.RoundTrip.xor rd rs1 rs2 hi
  | not rd rs1 => exact Laws.RoundTrip.not rd rs1 hi
  | mul rd rs1 rs2 => exact Laws.RoundTrip.mul rd rs1 rs2 hi
  | mulf rd rd2 rs1 rs2 => exact Laws.RoundTrip.mulf rd rd2 rs1 rs2 hi
  | shl rd rs1 rs2 => exact Laws.RoundTrip.shl rd rs1 rs2 hi
  | shr rd rs1 rs2 => exact Laws.RoundTrip.shr rd rs1 rs2 hi

/-- The decoder as a relation: a command and its word determine each other. -/
theorem decode_eq_ok_iff {w : CommandWord} {i : Instr} : decode w = .ok i ↔ i.wellFormed = true ∧ encode i = w :=
  ⟨wellFormed_and_encode_of_decode, fun ⟨hi, hw⟩ => hw ▸ decode_encode hi⟩

/-! ### Legal words (R42) -/

/-- The six conditions of R42, on the fields. -/
theorem legal_iff (w : CommandWord) :
    legal w = true ↔
      rsvField w = 0 ∧ (0x01 ≤ (opcField w).toNat ∧ (opcField w).toNat ≤ 0x0F) ∧
        ((opcField w).toNat ≠ 0x0D → rd2Field w = 0) ∧
        (0x03 ≤ (opcField w).toNat ∧ (opcField w).toNat ≤ 0x07 → rdField w = 0) ∧
        ((opcField w).toNat = 0x0B → rs2Field w = 0) ∧ ((opcField w).toNat = 0x0D → rdField w ≠ rd2Field w) := by
  simp only [legal, Bool.and_eq_true, Bool.or_eq_true, Bool.not_eq_true', beq_iff_eq, bne_iff_ne, decide_eq_true_iff,
    decide_eq_false_iff_not, and_assoc, or_iff_not_imp_left, ne_eq, not_not]

theorem rdField_eq_zero_iff (w : CommandWord) : rdField w = 0 ↔ w.extractLsb' 5 3 = 0 := BitVec.toFin_inj
theorem rs2Field_eq_zero_iff (w : CommandWord) : rs2Field w = 0 ↔ w.extractLsb' 11 3 = 0 := BitVec.toFin_inj
theorem rd2Field_eq_zero_iff (w : CommandWord) : rd2Field w = 0 ↔ w.extractLsb' 14 3 = 0 := BitVec.toFin_inj
theorem rdField_eq_rd2Field_iff (w : CommandWord) : rdField w = rd2Field w ↔ w.extractLsb' 5 3 = w.extractLsb' 14 3 :=
  BitVec.toFin_inj

/-- The six conditions of R42, on the bits of the word. -/
theorem legal_iff_bits (w : CommandWord) :
    legal w = true ↔
      w.extractLsb' 17 15 = 0 ∧ (0x01 ≤ (w.extractLsb' 0 5).toNat ∧ (w.extractLsb' 0 5).toNat ≤ 0x0F) ∧
        ((w.extractLsb' 0 5).toNat ≠ 0x0D → w.extractLsb' 14 3 = 0) ∧
        (0x03 ≤ (w.extractLsb' 0 5).toNat ∧ (w.extractLsb' 0 5).toNat ≤ 0x07 → w.extractLsb' 5 3 = 0) ∧
        ((w.extractLsb' 0 5).toNat = 0x0B → w.extractLsb' 11 3 = 0) ∧
        ((w.extractLsb' 0 5).toNat = 0x0D → w.extractLsb' 5 3 ≠ w.extractLsb' 14 3) := by
  rw [legal_iff, rdField_eq_zero_iff, rs2Field_eq_zero_iff, rd2Field_eq_zero_iff, ne_eq (rdField w),
    rdField_eq_rd2Field_iff]
  rfl

/-! ### Each form decodes exactly under its own condition, so the decoder accepts exactly the legal words -/

theorem exists_decodeThreeRegister (mk : Reg → Reg → Reg → Instr) (w : CommandWord) :
    (∃ i, decodeThreeRegister mk w = .ok i) ↔ rd2Field w = 0 := by
  unfold decodeThreeRegister
  split <;> simp [*]

theorem exists_decodeCompare (mk : Reg → Reg → Instr) (w : CommandWord) :
    (∃ i, decodeCompare mk w = .ok i) ↔ rd2Field w = 0 ∧ rdField w = 0 := by
  unfold decodeCompare
  split <;> simp [*]

theorem exists_decodeOneSource (mk : Reg → Reg → Instr) (w : CommandWord) :
    (∃ i, decodeOneSource mk w = .ok i) ↔ rd2Field w = 0 ∧ rs2Field w = 0 := by
  unfold decodeOneSource
  split <;> simp [*]

theorem exists_decodeTwoDestination (mk : Reg → Reg → Reg → Reg → Instr) (w : CommandWord) :
    (∃ i, decodeTwoDestination mk w = .ok i) ↔ rdField w ≠ rd2Field w := by
  unfold decodeTwoDestination
  split <;> simp [*]

/-- By the rows of the opcode map: each asks of its word what R42 asks of that opcode. -/
theorem exists_decode_iff_legal (w : CommandWord) : (∃ i, decode w = .ok i) ↔ legal w = true := by
  rw [legal_iff, decode]
  split
  · next hrsv => exact iff_of_false (by simp) fun h => hrsv h.1
  · next hrsv =>
    rw [not_not] at hrsv
    split
    case h_16 =>
      refine iff_of_false (by simp) ?_
      rintro ⟨-, hrange, -⟩
      simp only [imp_false] at *
      omega
    -- one row of the map each: the conditions on the other rows' opcodes drop out
    all_goals
      next hopc =>
      simp [hrsv, hopc, exists_decodeThreeRegister, exists_decodeCompare, exists_decodeOneSource,
        exists_decodeTwoDestination]

/-- The classes of R43, each with the condition of R42 it breaks. -/
theorem not_decoded_of_reserved {w : CommandWord}
    (hreserved : (opcField w).toNat = 0x00 ∨ 0x10 ≤ (opcField w).toNat ∨ rsvField w ≠ 0 ∨
      ((opcField w).toNat ≠ 0x0D ∧ rd2Field w ≠ 0) ∨
      (0x03 ≤ (opcField w).toNat ∧ (opcField w).toNat ≤ 0x07 ∧ rdField w ≠ 0) ∨
      ((opcField w).toNat = 0x0B ∧ rs2Field w ≠ 0)) : ¬ ∃ i, decode w = .ok i := by
  rw [exists_decode_iff_legal, legal_iff]
  rintro ⟨hrsv, ⟨hlow, hhigh⟩, hrd2, hrd, hrs2, -⟩
  rcases hreserved with h | h | h | ⟨h, hne⟩ | ⟨h, h', hne⟩ | ⟨h, hne⟩
  · omega
  · omega
  · exact h hrsv
  · exact hne (hrd2 h)
  · exact hne (hrd ⟨h, h'⟩)
  · exact hne (hrs2 h)

/-! ### Masks and matches (R41) -/

/-- A word is its six fields (R37). -/
theorem eq_iff_fields (x y : CommandWord) :
    x = y ↔ opcField x = opcField y ∧ rdField x = rdField y ∧ rs1Field x = rs1Field y ∧ rs2Field x = rs2Field y ∧
      rd2Field x = rd2Field y ∧ rsvField x = rsvField y := by
  simp only [← BitVec.toNat_inj, Fin.ext_iff, opcField_toNat, rdField_val, rs1Field_val, rs2Field_val, rd2Field_val,
    rsvField_toNat]
  omega

/-- The mask that keeps OPC and RSV, and those of RD, RS2 and RD2 that a command must hold at 0 (R41). -/
def fieldMask (rd rs2 rd2 : Bool) : CommandWord :=
  0xFFFE001F ||| (if rd then 0xE0 else 0) ||| (if rs2 then 0x3800 else 0) ||| (if rd2 then 0x1C000 else 0)

/-- A mask keeps a field whole or drops it whole. -/
theorem extractLsb'_and_mask {k n : Nat} (w : CommandWord) {mask : CommandWord} {keep : Bool}
    (hmask : mask.extractLsb' k n = if keep then BitVec.allOnes n else 0) :
    (w &&& mask).extractLsb' k n = if keep then w.extractLsb' k n else 0 := by
  rw [BitVec.extractLsb'_and, hmask]
  cases keep <;> simp

section FieldMask
variable (w : CommandWord) (rd rs2 rd2 : Bool)

theorem opcField_and_fieldMask : opcField (w &&& fieldMask rd rs2 rd2) = opcField w :=
  extractLsb'_and_mask w (keep := true) (by revert rd rs2 rd2; decide)
theorem rsvField_and_fieldMask : rsvField (w &&& fieldMask rd rs2 rd2) = rsvField w :=
  extractLsb'_and_mask w (keep := true) (by revert rd rs2 rd2; decide)
theorem rs1Field_and_fieldMask : rs1Field (w &&& fieldMask rd rs2 rd2) = 0 :=
  congrArg BitVec.toFin (extractLsb'_and_mask w (keep := false) (by revert rd rs2 rd2; decide))
theorem rdField_and_fieldMask : rdField (w &&& fieldMask rd rs2 rd2) = if rd then rdField w else 0 := by
  refine (congrArg BitVec.toFin (extractLsb'_and_mask w (keep := rd) ?_)).trans (apply_ite ..)
  revert rd rs2 rd2; decide
theorem rs2Field_and_fieldMask : rs2Field (w &&& fieldMask rd rs2 rd2) = if rs2 then rs2Field w else 0 := by
  refine (congrArg BitVec.toFin (extractLsb'_and_mask w (keep := rs2) ?_)).trans (apply_ite ..)
  revert rd rs2 rd2; decide
theorem rd2Field_and_fieldMask : rd2Field (w &&& fieldMask rd rs2 rd2) = if rd2 then rd2Field w else 0 := by
  refine (congrArg BitVec.toFin (extractLsb'_and_mask w (keep := rd2) ?_)).trans (apply_ite ..)
  revert rd rs2 rd2; decide

end FieldMask

/-- A match is the word of an opcode with every other field 0. -/
theorem and_fieldMask_eq_iff (w : CommandWord) (rd rs2 rd2 : Bool) {opc : Nat} (h : opc < 32) :
    w &&& fieldMask rd rs2 rd2 = BitVec.ofNat 32 opc ↔
      (opcField w).toNat = opc ∧ (rd = true → rdField w = 0) ∧ (rs2 = true → rs2Field w = 0) ∧
        (rd2 = true → rd2Field w = 0) ∧ rsvField w = 0 := by
  have hmatch : BitVec.ofNat 32 opc = assembleFields opc 0 0 0 0 := by simp [assembleFields]
  rw [hmatch, eq_iff_fields, ← BitVec.toNat_inj, opcField_and_fieldMask, rdField_and_fieldMask, rs1Field_and_fieldMask,
    rs2Field_and_fieldMask, rd2Field_and_fieldMask, rsvField_and_fieldMask, opcField_assembleFields h,
    rdField_assembleFields h, rs1Field_assembleFields h, rs2Field_assembleFields h, rd2Field_assembleFields h,
    rsvField_assembleFields h]
  simp

/-! ### Which words decode to a command of each form -/

section Forms
variable {opc : Nat} (h : opc < 32) (w : CommandWord)
include h

theorem exists_decode_threeRegister_iff {mk : Reg → Reg → Reg → Instr}
    (hmk : ∀ d a b, (mk d a b).wellFormed = true ∧ encode (mk d a b) = assembleFields opc d a b 0) :
    (∃ d a b, decode w = .ok (mk d a b)) ↔ w &&& fieldMask false false true = BitVec.ofNat 32 opc := by
  rw [and_fieldMask_eq_iff w _ _ _ h]
  simp only [decode_eq_ok_iff, hmk, true_and, reduceCtorEq, false_implies, true_implies]
  constructor
  · rintro ⟨d, a, b, rfl⟩
    simp [opcField_assembleFields h, rd2Field_assembleFields h, rsvField_assembleFields h]
  · rintro ⟨hopc, hrd2, hrsv⟩
    have hw := assembleFields_fields hrsv
    rw [hopc, hrd2] at hw
    exact ⟨_, _, _, hw⟩

theorem exists_decode_compare_iff {mk : Reg → Reg → Instr}
    (hmk : ∀ a b, (mk a b).wellFormed = true ∧ encode (mk a b) = assembleFields opc 0 a b 0) :
    (∃ a b, decode w = .ok (mk a b)) ↔ w &&& fieldMask true false true = BitVec.ofNat 32 opc := by
  rw [and_fieldMask_eq_iff w _ _ _ h]
  simp only [decode_eq_ok_iff, hmk, true_and, reduceCtorEq, false_implies, true_implies]
  constructor
  · rintro ⟨a, b, rfl⟩
    simp [opcField_assembleFields h, rdField_assembleFields h, rd2Field_assembleFields h, rsvField_assembleFields h]
  · rintro ⟨hopc, hrd, hrd2, hrsv⟩
    have hw := assembleFields_fields hrsv
    rw [hopc, hrd, hrd2] at hw
    exact ⟨_, _, hw⟩

end Forms

theorem exists_decode_not_iff (w : CommandWord) :
    (∃ d a, decode w = .ok (.not d a)) ↔ w &&& fieldMask false true true = BitVec.ofNat 32 0x0B := by
  have h : (0x0B : Nat) < 32 := by decide
  rw [and_fieldMask_eq_iff w _ _ _ h]
  simp only [decode_eq_ok_iff, Instr.wellFormed, encode, true_and, reduceCtorEq, false_implies, true_implies]
  constructor
  · rintro ⟨d, a, rfl⟩
    simp [opcField_assembleFields h, rs2Field_assembleFields h, rd2Field_assembleFields h, rsvField_assembleFields h]
  · rintro ⟨hopc, hrs2, hrd2, hrsv⟩
    have hw := assembleFields_fields hrsv
    rw [hopc, hrs2, hrd2] at hw
    exact ⟨_, _, hw⟩

theorem exists_decode_mulf_iff (w : CommandWord) :
    (∃ lo hi a b, decode w = .ok (.mulf lo hi a b)) ↔
      w &&& fieldMask false false false = BitVec.ofNat 32 0x0D ∧ rdField w ≠ rd2Field w := by
  have h : (0x0D : Nat) < 32 := by decide
  rw [and_fieldMask_eq_iff w _ _ _ h]
  simp only [decode_eq_ok_iff, Instr.wellFormed, encode, bne_iff_ne, true_and, reduceCtorEq, false_implies]
  constructor
  · rintro ⟨lo, hi, a, b, hne, rfl⟩
    simpa [opcField_assembleFields h, rdField_assembleFields h, rd2Field_assembleFields h, rsvField_assembleFields h]
      using hne
  · rintro ⟨⟨hopc, hrsv⟩, hne⟩
    have hw := assembleFields_fields hrsv
    rw [hopc] at hw
    exact ⟨_, _, _, _, hne, hw⟩

/-! ### Issued words -/

/-- The table's bits of a whole command word are the word (log 11). -/
theorem tableWord_toNat (w : CommandWord) : tableWord 32 w.toNat = w :=
  BitVec.eq_of_toNat_eq (by have := w.isLt; rw [tableWord, BitVec.toNat_ofNat]; omega)

end Sys2Proof

namespace Sys2Proof.Machine

/-- IllegalCommand is raised for the words that do not decode, whatever the state (R81). -/
theorem raised_issue_eq_illegalCommand_iff (w : CommandWord) (s : State) :
    raised (.issue w) s = some (.illegalCommand w) ↔ ¬ ∃ i, decode w = .ok i := by
  cases hd : decode w with
  | error e => simp [raised, hd]
  | ok i => simp [raised, hd]

theorem issue_of_decode {w : CommandWord} {i : Instr} (hd : decode w = .ok i) (s : State) :
    issue w s = exec i s.nextCommand := by
  simp only [issue, hd]

/-- R44: whatever else the host has pending, the step runs the command its next word decodes to. -/
theorem step_of_issue {s : State} {w : CommandWord} {i : Instr} {rest : List PortOp}
    (hp : s.pending = .issue w :: rest) (hd : decode w = .ok i) :
    step s = exec i (s.withPending rest).nextCommand :=
  (step_of_pending_cons hp).trans (issue_of_decode hd _)

/-! ### The statements -/

/-- Settles O1: the family RoundTrip, a case per command. -/
theorem decodeOfEncodeIsTheCommand : Obligations.DecodeOfEncodeIsTheCommand := fun _ => decode_encode

/-- Settles O2: by the rows of the opcode map; a legal word's fields assemble to the word itself. -/
theorem decodedWordIsItsEncoding : Obligations.DecodedWordIsItsEncoding := fun _ _ => wellFormed_and_encode_of_decode

/-- Settles O3: each row of the opcode map decodes exactly under the conditions R42 puts on it. -/
theorem legalWordsAreExactlyTheDecoded : Obligations.LegalWordsAreExactlyTheDecoded := by
  intro w opc conditions
  have hdecoded : (∃ i, decode w = .ok i) ↔ conditions := (exists_decode_iff_legal w).trans (legal_iff_bits w)
  exact ⟨hdecoded, legal_iff_bits w, fun s => (raised_issue_eq_illegalCommand_iff w s).trans (not_congr hdecoded)⟩

/-- Settles O4: each mask is the field mask of its form, and the fields it keeps fix all but the operands. -/
theorem maskAndMatchSelectTheCommand : Obligations.MaskAndMatchSelectTheCommand := by
  intro w
  have three {opc : Nat} (h : opc < 32) := @exists_decode_threeRegister_iff opc h w
  have compare {opc : Nat} (h : opc < 32) := @exists_decode_compare_iff opc h w
  exact ⟨three (by decide) fun _ _ _ => ⟨rfl, rfl⟩, three (by decide) fun _ _ _ => ⟨rfl, rfl⟩,
    compare (by decide) fun _ _ => ⟨rfl, rfl⟩, compare (by decide) fun _ _ => ⟨rfl, rfl⟩,
    compare (by decide) fun _ _ => ⟨rfl, rfl⟩, compare (by decide) fun _ _ => ⟨rfl, rfl⟩,
    compare (by decide) fun _ _ => ⟨rfl, rfl⟩, three (by decide) fun _ _ _ => ⟨rfl, rfl⟩,
    three (by decide) fun _ _ _ => ⟨rfl, rfl⟩, three (by decide) fun _ _ _ => ⟨rfl, rfl⟩,
    exists_decode_not_iff w, three (by decide) fun _ _ _ => ⟨rfl, rfl⟩,
    (exists_decode_mulf_iff w).trans (and_congr_right' (not_congr (rdField_eq_rd2Field_iff w))),
    three (by decide) fun _ _ _ => ⟨rfl, rfl⟩, three (by decide) fun _ _ _ => ⟨rfl, rfl⟩⟩

/-- Settles O5: each class of R43 breaks one of R42's conditions. -/
theorem reservedEncodingsAreIllegal : Obligations.ReservedEncodingsAreIllegal := by
  refine ⟨?_, not_exists.mp (not_decoded_of_reserved (w := 0) (.inl rfl))⟩
  intro w opc hreserved
  have hillegal := not_decoded_of_reserved hreserved
  exact ⟨not_exists.mp hillegal, fun s => (raised_issue_eq_illegalCommand_iff w s).mpr hillegal⟩

/-- Settles O7: the step takes the word off the list, moves the index and runs the command; a word given by its table bits is
that word. -/
theorem stepRunsTheDecodedCommand : Obligations.StepRunsTheDecodedCommand := by
  refine ⟨fun s w i rest hp hd => step_of_issue hp hd, fun s w i hd => ?_⟩
  have hp : (s.withFetchWord 32 w.toNat).pending = .issue w :: s.pending := by
    rw [State.withFetchWord, tableWord_toNat, State.withPending_pending]
  exact step_of_issue hp hd

end Sys2Proof.Machine
end

section
/-! SUPPORT. The pseudo-instructions' effects (R46), and the source form read back (R45). -/

namespace Sys2Proof.Machine

/-! ### Limb-wise units on equal operands, and a complement plus one (R46) -/

theorem limbwiseOr_self (a : Value) : limbwiseOr a a = a := by
  simp [limbwiseOr, List.zipWith_self]

theorem val_limbwiseXor_self (a : Value) : val (limbwiseXor a a) = 0 :=
  (val_eq_zero_iff _).mpr ((limbwiseXor_all_zero_iff rfl).mpr rfl)

/-- NOT and then ADD of one is the negation, and it carries exactly for 0. -/
theorem negate_of_not_add_one {a one : Value} (hlen : a.length = one.length) (hone : val one = 1) :
    val (rippleAdd (limbwiseNot a) one).1 = (2 ^ (64 * a.length) - val a) % 2 ^ (64 * a.length) ∧
      carryFlag (limbwiseNot a) one = decide (val a = 0) := by
  have hlen' : (limbwiseNot a).length = one.length := (length_limbwiseNot a).trans hlen
  have hnot := val_limbwiseNot a
  have hsum : val (limbwiseNot a) + 1 = 2 ^ (64 * a.length) - val a := by omega
  rw [val_rippleAdd hlen', carryFlag_eq hlen', hone, length_limbwiseNot, hsum]
  exact ⟨rfl, decide_eq_decide.mpr (by omega)⟩

/-! ### Frames in sequence -/

/-- Two results framed by the same destinations, one after the other. -/
theorem WritesOnly.trans {dst : List Reg} {s t u : State} (h : WritesOnly dst s t) (h' : WritesOnly dst t u) :
    WritesOnly dst s u where
  written r hr := ⟨(h'.written r hr).1, h.elsewhere.limbCount ▸ (h'.written r hr).2⟩
  others r hr :=
    ⟨(h'.others r hr).1.trans (h.others r hr).1, (h'.others r hr).2.trans (h.others r hr).2⟩
  elsewhere :=
    { limbCount := h'.elsewhere.limbCount.trans h.elsewhere.limbCount
      ill := h'.elsewhere.ill.trans h.elsewhere.ill
      cmdIndex := h'.elsewhere.cmdIndex.trans h.elsewhere.cmdIndex
      pending := h'.elsewhere.pending.trans h.elsewhere.pending
      replies := h'.elsewhere.replies.trans h.elsewhere.replies
      epoch := h'.elsewhere.epoch.trans h.elsewhere.epoch }

theorem execAll_one {i : Instr} {s t : State} (h : exec i s = .next t) : execAll [i] s = .next t := by
  simp only [execAll, h]

theorem execAll_cons {i : Instr} {s t : State} (rest : List Instr) (h : exec i s = .next t) :
    execAll (i :: rest) s = execAll rest t := by
  simp only [execAll, h]

/-- Under the checked reading a command whose first source nothing has written is that fault (R83, R84). -/
theorem checkedExec_of_first_unwritten {i : Instr} {s : State} {r : Reg} {rest : List Reg} (hsrc : sources i = r :: rest)
    (hr : s.isWritten r = false) : checkedExec i s = .fault (.unwritten r) := by
  have hfirst : s.firstUnwritten (sources i) = some r := by simp [State.firstUnwritten, hsrc, hr]
  simp only [checkedExec, hfirst]

/-! ### The three pseudo-instructions, each from the state it starts in -/

theorem mov_copies (rd rs : Reg) {s : State} (hs : s.WF) :
    ∃ t, execAll (expand (.mov rd rs)) s = .next t ∧ t.readReg rd = s.readReg rs ∧ t.flag = s.flag ∧
      WritesOnly [rd] s t := by
  have hexec : exec (.or rd rs rs) s = .next (s.writeReg rd (s.readReg rs)) := by
    rw [exec, execOr, twoSources_a, twoSources_b, limbwiseOr_self]
  exact ⟨_, execAll_one hexec, readReg_writeReg_self s rd _, rfl, writesOnly_writeReg s rd (hs rs)⟩

theorem clr_writes_zero (rd : Reg) {s : State} (hs : s.WF) :
    ∃ t, execAll (expand (.clr rd)) s = .next t ∧ t.regVal rd = 0 ∧ t.flag = s.flag ∧ WritesOnly [rd] s t := by
  have hlen : (limbwiseXor (s.readReg rd) (s.readReg rd)).length = s.limbCount.count := by simp [hs rd]
  refine ⟨s.writeReg rd (limbwiseXor (s.readReg rd) (s.readReg rd)), execAll_one rfl, ?_, rfl,
    writesOnly_writeReg s rd hlen⟩
  rw [State.regVal, readReg_writeReg_self, val_limbwiseXor_self]

theorem neg_negates {rd rs rone : Reg} {s : State} (hs : s.WF) (hone : s.regVal rone = 1) (hne : rone ≠ rd) :
    ∃ t, execAll (expand (.neg rd rs rone)) s = .next t ∧
      t.regVal rd = (2 ^ s.width - s.regVal rs) % 2 ^ s.width ∧ t.flag = decide (s.regVal rs = 0) ∧
      WritesOnly [rd] s t := by
  -- `t` is the state between the two commands: Vd holds the complement and Vone is as before
  have hlen : (limbwiseNot (s.readReg rs)).length = s.limbCount.count := (length_limbwiseNot _).trans (hs rs)
  have hnot : exec (.not rd rs) s = .next (s.writeReg rd (limbwiseNot (s.readReg rs))) := rfl
  have hfirst := writesOnly_writeReg s rd hlen
  generalize ht : s.writeReg rd (limbwiseNot (s.readReg rs)) = t at hnot hfirst
  have htd : t.readReg rd = limbwiseNot (s.readReg rs) := by rw [← ht, readReg_writeReg_self]
  have htone : t.readReg rone = s.readReg rone := by rw [← ht, readReg_writeReg_of_ne s _ hne]
  have hadd : exec (.add rd rd rone) t =
      .next ((t.writeReg rd (rippleAdd (limbwiseNot (s.readReg rs)) (s.readReg rone)).1).setFlag
        (carryFlag (limbwiseNot (s.readReg rs)) (s.readReg rone))) := by
    rw [exec, execAdd, twoSources_a, twoSources_b, htd, htone]
  obtain ⟨hval, hflag⟩ := negate_of_not_add_one ((hs rs).trans (hs rone).symm) hone
  have hlen' : (rippleAdd (limbwiseNot (s.readReg rs)) (s.readReg rone)).1.length = t.limbCount.count := by
    rw [length_rippleAdd, hlen, hs rone, Nat.min_self, hfirst.elsewhere.limbCount]
  refine ⟨_, (execAll_cons _ hnot).trans (execAll_one hadd), ?_, hflag,
    hfirst.trans ((writesOnly_writeReg t rd hlen').setFlag _)⟩
  rw [State.regVal, readReg_setFlag, readReg_writeReg_self, hval, hs rs]
  rfl

/-! ### Reading register names back -/

theorem parseReg_regName (r : Reg) : parseReg (trimBlanks (regName r)) = some r := by
  revert r; decide

theorem splitAtCommas_of_no_comma {l : List Char} (h : ',' ∉ l) : splitAtCommas l = [l] := by
  induction l with
  | nil => rfl
  | cons c cs ih =>
    rw [List.mem_cons, not_or] at h
    rw [splitAtCommas, if_neg (Ne.symm h.1), ih h.2]

theorem splitAtCommas_append_comma {l : List Char} (h : ',' ∉ l) (rest : List Char) :
    splitAtCommas (l ++ ',' :: rest) = l :: splitAtCommas rest := by
  induction l with
  | nil => rfl
  | cons c cs ih =>
    rw [List.mem_cons, not_or] at h
    rw [List.cons_append, splitAtCommas, if_neg (Ne.symm h.1), ih h.2]

theorem splitAtCommas_ne_nil (l : List Char) : splitAtCommas l ≠ [] := by
  cases l with
  | nil => simp [splitAtCommas]
  | cons c cs =>
    unfold splitAtCommas
    split
    · simp
    · split <;> simp

theorem comma_notMem_regName (r : Reg) : ',' ∉ regName r := by
  revert r; decide

theorem parseOperands_regName (r : Reg) : parseOperands (regName r) = some [r] := by
  simp [parseOperands, splitAtCommas_of_no_comma (comma_notMem_regName r), parseReg_regName]

theorem parseOperands_regName_comma (r : Reg) {rest : List Char} {rs : List Reg} (h : parseOperands rest = some rs) :
    parseOperands (regName r ++ ',' :: rest) = some (r :: rs) := by
  rw [parseOperands] at h
  simp [parseOperands, splitAtCommas_append_comma (comma_notMem_regName r), parseReg_regName, h]

/-- A blank before the operands is dropped with the blanks at the ends of the first of them. -/
theorem parseOperands_blank (l : List Char) : parseOperands (' ' :: l) = parseOperands l := by
  obtain ⟨part, parts, hsplit⟩ := List.exists_cons_of_ne_nil (splitAtCommas_ne_nil l)
  have hblank : splitAtCommas (' ' :: l) = (' ' :: part) :: parts := by
    rw [splitAtCommas, if_neg (by decide), hsplit]
  have htrim : trimBlanks (' ' :: part) = trimBlanks part := rfl
  rw [parseOperands, parseOperands, hblank, hsplit, List.mapM_cons, List.mapM_cons, htrim]

theorem parseOperands_writeRegs (r : Reg) (rs : List Reg) : parseOperands (writeRegs (r :: rs)) = some (r :: rs) := by
  induction rs generalizing r with
  | nil => exact parseOperands_regName r
  | cons r' rs ih =>
    have hrest : parseOperands (' ' :: writeRegs (r' :: rs)) = some (r' :: rs) := (parseOperands_blank _).trans (ih r')
    have hline : writeRegs (r :: r' :: rs) = regName r ++ ',' :: ' ' :: writeRegs (r' :: rs) := by simp [writeRegs]
    rw [hline, parseOperands_regName_comma r hrest]

/-! ### A written line is its own command text -/

/-- A character that reading a line leaves as it is: no start of a comment, no small letter. -/
def isPlain (c : Char) : Bool := c != ';' && c.toUpper == c

theorem writeRegs_plain (rs : List Reg) : (writeRegs rs).all isPlain = true := by
  have hname : ∀ r, (regName r).all isPlain = true := by decide
  induction rs with
  | nil => rfl
  | cons r rs ih =>
    cases rs with
    | nil => exact hname r
    | cons r' rs =>
      rw [writeRegs, List.all_append, List.all_append, hname, ih]
      decide

/-- Operands begin with a V and end with a digit: no blank stands at either end. -/
theorem writeRegs_ends (r : Reg) (rs : List Reg) :
    (∃ tail, writeRegs (r :: rs) = 'V' :: tail) ∧ ∃ front r', writeRegs (r :: rs) = front ++ [regDigit r'] := by
  induction rs generalizing r with
  | nil => exact ⟨⟨_, rfl⟩, ['V'], r, rfl⟩
  | cons r' rs ih =>
    obtain ⟨-, front, r'', hend⟩ := ih r'
    exact ⟨⟨_, rfl⟩, regName r ++ [',', ' '] ++ front, r'', by simp [writeRegs, hend]⟩

theorem isBlank_regDigit (r : Reg) : isBlank (regDigit r) = false := by
  revert r; decide

theorem trimBlanks_of_ends {c d : Char} (hc : isBlank c = false) (hd : isBlank d = false) {l mid mid' : List Char}
    (hfirst : l = c :: mid) (hlast : l = mid' ++ [d]) : trimBlanks l = l := by
  have h1 : l.dropWhile isBlank = l := by rw [hfirst, List.dropWhile_cons_of_neg (by simp [hc])]
  have h2 : l.reverse.dropWhile isBlank = l.reverse := by
    rw [hlast, List.reverse_append, List.reverse_singleton, List.singleton_append,
      List.dropWhile_cons_of_neg (by simp [hd])]
  rw [trimBlanks, h1, h2, List.reverse_reverse]

theorem commandText_of_plain {line : List Char} (h : line.all isPlain = true) : commandText line = trimBlanks line := by
  have hplain : ∀ c ∈ line, c ≠ ';' ∧ c.toUpper = c := by simpa [isPlain] using h
  have hcomment : line.takeWhile (fun c => c != ';') = line :=
    List.takeWhile_eq_self_iff.mpr fun c hc => by simpa using (hplain c hc).1
  have hupper : line.map Char.toUpper = line := 
    (List.map_congr_left fun c hc => (hplain c hc).2).trans (List.map_id line)
  rw [commandText, hcomment, hupper]

theorem trimBlanks_writeRegs (r : Reg) (rs : List Reg) : trimBlanks (writeRegs (r :: rs)) = writeRegs (r :: rs) := by
  obtain ⟨⟨tail, hfirst⟩, front, r', hlast⟩ := writeRegs_ends r rs
  exact trimBlanks_of_ends (by decide) (isBlank_regDigit r') hfirst hlast

/-- What a line may begin with: a word with no blank in it that reading the line leaves as it is. -/
def isWord (w : List Char) : Bool := !w.isEmpty && w.all (fun c => isPlain c && !isBlank c)

theorem isWord_iff {w : List Char} : isWord w = true ↔ w ≠ [] ∧ ∀ c ∈ w, isPlain c = true ∧ isBlank c = false := by
  simp [isWord]

/-- A mnemonic in capitals, a blank and the operands: the text is the line, and it is split at that blank. -/
theorem assembleLine_mnemonic_writeRegs (mnemonic : List Char) (hmnemonic : isWord mnemonic = true) (r : Reg)
    (rs : List Reg) :
    assembleLine (mnemonic ++ ' ' :: writeRegs (r :: rs)) = assembleCommand mnemonic (r :: rs) := by
  obtain ⟨hne, hword⟩ := isWord_iff.mp hmnemonic
  obtain ⟨c, cs, rfl⟩ := List.exists_cons_of_ne_nil hne
  obtain ⟨-, front, r', hlast⟩ := writeRegs_ends r rs
  have hplain : (c :: cs ++ ' ' :: writeRegs (r :: rs)).all isPlain = true := by
    rw [List.all_append, List.all_eq_true.mpr fun x hx => (hword x hx).1, List.all_cons, writeRegs_plain]
    decide
  have htext : commandText (c :: cs ++ ' ' :: writeRegs (r :: rs)) = c :: cs ++ ' ' :: writeRegs (r :: rs) :=
    (commandText_of_plain hplain).trans
      (trimBlanks_of_ends (mid' := c :: cs ++ ' ' :: front) (hword c (by simp)).2 (isBlank_regDigit r') rfl
        (by simp [hlast]))
  have hnonblank : ∀ x ∈ c :: cs, (!isBlank x) = true := fun x hx => by simp [(hword x hx).2]
  have htake : (c :: cs ++ ' ' :: writeRegs (r :: rs)).takeWhile (fun x => !isBlank x) = c :: cs := by
    rw [List.takeWhile_append_of_pos hnonblank, List.takeWhile_cons_of_neg (by decide), List.append_nil]
  have hdrop : (c :: cs ++ ' ' :: writeRegs (r :: rs)).dropWhile (fun x => !isBlank x) = ' ' :: writeRegs (r :: rs) := by
    rw [List.dropWhile_append_of_pos hnonblank, List.dropWhile_cons_of_neg (by decide)]
  have hoperands : parseOperands (trimBlanks (' ' :: writeRegs (r :: rs))) = some (r :: rs) := by
    have hblank : trimBlanks (' ' :: writeRegs (r :: rs)) = trimBlanks (writeRegs (r :: rs)) := rfl
    rw [hblank, trimBlanks_writeRegs, parseOperands_writeRegs]
  have hempty : (c :: cs ++ ' ' :: writeRegs (r :: rs)).isEmpty = false := rfl
  simp only [assembleLine, htext, htake, hdrop, hoperands, hempty, Bool.false_eq_true, if_false]

/-- A MULF line names both halves; with one register for them it is refused (R45). -/
theorem assembleLine_mulf (lo hi a b : Reg) :
    assembleLine (writeLine (.mulf lo hi a b)) =
      if lo = hi then .error .sameDestinations else .ok [.mulf lo hi a b] :=
  assembleLine_mnemonic_writeRegs ['M', 'U', 'L', 'F'] (by decide) lo [hi, a, b]

/-! ### The statements -/

/-- Settles O56: MOV is an OR of a value with itself, CLR an XOR of one with itself, and NEG the complement plus one. -/
theorem pseudoInstructionsCompute : Obligations.PseudoInstructionsCompute :=
  ⟨fun rd rs => ⟨rfl, fun _ hs => mov_copies rd rs hs⟩,
    fun rd => ⟨rfl, fun _ hr => checkedExec_of_first_unwritten rfl hr, fun _ hs => clr_writes_zero rd hs⟩,
    fun _ _ _ => ⟨rfl, fun _ hs hone hne => neg_negates hs hone hne⟩⟩

/-- Settles O57: the line is read back as its mnemonic and its registers, which the mnemonic's form makes the command. -/
theorem sourceFormAssemblesToTheCommand : Obligations.SourceFormAssemblesToTheCommand := by
  refine ⟨fun i hi => ?_, fun lo a b => (assembleLine_mulf lo lo a b).trans (if_pos rfl)⟩
  cases i with
  | add d a b => exact assembleLine_mnemonic_writeRegs ['A', 'D', 'D'] (by decide) d [a, b]
  | sub d a b => exact assembleLine_mnemonic_writeRegs ['S', 'U', 'B'] (by decide) d [a, b]
  | cmpeq a b => exact assembleLine_mnemonic_writeRegs ['C', 'M', 'P', 'E', 'Q'] (by decide) a [b]
  | cmplt a b => exact assembleLine_mnemonic_writeRegs ['C', 'M', 'P', 'L', 'T'] (by decide) a [b]
  | cmplte a b => exact assembleLine_mnemonic_writeRegs ['C', 'M', 'P', 'L', 'T', 'E'] (by decide) a [b]
  | cmpgt a b => exact assembleLine_mnemonic_writeRegs ['C', 'M', 'P', 'G', 'T'] (by decide) a [b]
  | cmpgte a b => exact assembleLine_mnemonic_writeRegs ['C', 'M', 'P', 'G', 'T', 'E'] (by decide) a [b]
  | and d a b => exact assembleLine_mnemonic_writeRegs ['A', 'N', 'D'] (by decide) d [a, b]
  | or d a b => exact assembleLine_mnemonic_writeRegs ['O', 'R'] (by decide) d [a, b]
  | xor d a b => exact assembleLine_mnemonic_writeRegs ['X', 'O', 'R'] (by decide) d [a, b]
  | not d a => exact assembleLine_mnemonic_writeRegs ['N', 'O', 'T'] (by decide) d [a]
  | mul d a b => exact assembleLine_mnemonic_writeRegs ['M', 'U', 'L'] (by decide) d [a, b]
  | mulf lo hi' a b => exact (assembleLine_mulf lo hi' a b).trans (if_neg (bne_iff_ne.mp hi))
  | shl d a b => exact assembleLine_mnemonic_writeRegs ['S', 'H', 'L'] (by decide) d [a, b]
  | shr d a b => exact assembleLine_mnemonic_writeRegs ['S', 'H', 'R'] (by decide) d [a, b]

end Sys2Proof.Machine
end

section
/-! SUPPORT. The limb primitives' statements (R47 to R52), from the exact sums of Laws/Limbs: each result is the exact number
split at a power of 2, so its words are the remainder and its carry, borrow or lost bit tells whether anything was split off. -/

namespace Sys2Proof.Machine

/-! ### A number split into a word and one bit -/

/-- A sum split into a word below m and a carry is its remainder, and the carry tells whether it reached m. -/
theorem eq_mod_and_carry_of_split {m r t : Nat} {c : Bool} (hr : r < m) (h : r + m * c.toNat = t) :
    r = t % m ∧ c = decide (m ≤ t) := by
  refine ⟨by rw [← h, Nat.add_mul_mod_self_left, Nat.mod_eq_of_lt hr], ?_⟩
  cases c <;> simp at h ⊢ <;> omega

/-- A difference d with m added back for a borrow is the remainder of d, and the borrow tells whether d is negative. -/
theorem eq_emod_and_borrow_of_split {m r : Nat} {d : Int} {w : Bool} (hr : r < m) (h : (r : Int) = d + m * w.toNat) :
    (r : Int) = d % m ∧ w = decide (d < 0) := by
  refine ⟨?_, by cases w <;> simp at h ⊢ <;> omega⟩
  rw [← Int.add_mul_emod_self_left d m w.toNat, ← h]
  exact (Int.emod_eq_of_lt (Int.natCast_nonneg r) (Int.ofNat_lt.mpr hr)).symm

/-- A sum below 2·m is its remainder and one bit. -/
theorem mod_add_mul_carry {m t : Nat} (h : t < 2 * m) : t % m + m * (decide (m ≤ t)).toNat = t := by
  by_cases hm : m ≤ t
  · have hmod : t % m = t - m := by rw [Nat.mod_eq_sub_mod hm, Nat.mod_eq_of_lt (by omega)]
    rw [decide_eq_true hm, Bool.toNat_true, hmod]
    omega
  · rw [decide_eq_false hm, Bool.toNat_false, Nat.mod_eq_of_lt (Nat.lt_of_not_le hm)]
    rfl

/-! ### The two-step forms: at most one of the two steps overflows (R48, R49) -/

theorem not_both_additions_carry (cin : Bool) (a b : Limb) :
    ¬ (2 ^ 64 ≤ a.toNat + b.toNat ∧ 2 ^ 64 ≤ (a + b).toNat + cin.toNat) := by
  have ha := a.isLt
  have hb := b.isLt
  have hc := Bool.toNat_le cin
  rw [BitVec.toNat_add]
  omega

theorem not_both_subtractions_borrow (bin : Bool) (a b : Limb) :
    ¬ (a.toNat < b.toNat ∧ (a - b).toNat < bin.toNat) := by
  have hb := b.isLt
  have hw := Bool.toNat_le bin
  rw [BitVec.toNat_sub]
  omega

/-! ### The two-word multiply-accumulate (R51) -/

/-- The new high word and the lost bit are the exact sum of the old one, the product's high half and the carry; the bound on
that half keeps the sum below 2^65, so one bit holds what is lost. -/
theorem multiplyAccumulate_high_exact (accHigh accLow a b : Limb) :
    (multiplyAccumulate accHigh accLow a b).high.toNat + 2 ^ 64 * (multiplyAccumulate accHigh accLow a b).lost.toNat =
      accHigh.toNat + (wideningMultiply a b).high.toNat +
        (addWithCarry false accLow (wideningMultiply a b).low).2.toNat := by
  have hacc := accHigh.isLt
  have hhigh := wideningMultiply_high_le a b
  have hcarry := Bool.toNat_le (addWithCarry false accLow (wideningMultiply a b).low).2
  simp only [multiplyAccumulate, BitVec.toNat_add, bitLimb_toNat, Nat.mod_add_mod]
  exact mod_add_mul_carry (by omega)

theorem multiplyAccumulate_exact (accHigh accLow a b : Limb) :
    (multiplyAccumulate accHigh accLow a b).low.toNat + 2 ^ 64 * (multiplyAccumulate accHigh accLow a b).high.toNat +
        2 ^ 128 * (multiplyAccumulate accHigh accLow a b).lost.toNat =
      accLow.toNat + 2 ^ 64 * accHigh.toNat + a.toNat * b.toNat := by
  have hproduct := wideningMultiply_exact a b
  have hhigh := multiplyAccumulate_high_exact accHigh accLow a b
  have hlow : (multiplyAccumulate accHigh accLow a b).low.toNat +
      2 ^ 64 * (addWithCarry false accLow (wideningMultiply a b).low).2.toNat =
        accLow.toNat + (wideningMultiply a b).low.toNat := addWithCarry_exact false _ _
  linear_combination hlow + 2 ^ 64 * hhigh + hproduct

/-! ### The statements -/

/-- Settles O48: the two-step sum is exact, so its word and its carry are the split of the true sum at 2^64. -/
theorem addWithCarryIsTheSum : Obligations.AddWithCarryIsTheSum := by
  intro cin a b
  obtain ⟨hsum, hcarry⟩ := eq_mod_and_carry_of_split (addWithCarry cin a b).1.isLt (addWithCarry_exact cin a b)
  exact ⟨hsum, hcarry, not_both_additions_carry cin a b⟩

/-- Settles O49: the two-step difference lacks 2^64 times the borrow, so it is the remainder of the true one. -/
theorem subWithBorrowIsTheDifference : Obligations.SubWithBorrowIsTheDifference := by
  intro bin a b
  have hexact := subWithBorrow_exact bin a b
  have hsplit : ((subWithBorrow bin a b).1.toNat : Int) =
      ((a.toNat : Int) - b.toNat - bin.toNat) + (2 ^ 64 : Nat) * (subWithBorrow bin a b).2.toNat := by omega
  obtain ⟨hdiff, hborrow⟩ := eq_emod_and_borrow_of_split (subWithBorrow bin a b).1.isLt hsplit
  have hneg : (a.toNat : Int) - b.toNat - bin.toNat < 0 ↔ a.toNat < b.toNat + bin.toNat := by omega
  exact ⟨hdiff, hborrow.trans (decide_eq_decide.mpr hneg), not_both_subtractions_borrow bin a b⟩

/-- Settles O50: the two halves make up the exact product, so they are its remainder and its quotient by 2^64. -/
theorem wideningMultiplyIsExact : Obligations.WideningMultiplyIsExact := by
  intro a b
  have hexact := wideningMultiply_exact a b
  have hlow := (wideningMultiply a b).low.isLt
  exact ⟨by omega, by omega, wideningMultiply_high_le a b⟩

/-- Settles O51: the two words and the lost bit make up the exact sum, so they are its split at 2^128. -/
theorem multiplyAccumulateLosesOneBit : Obligations.MultiplyAccumulateLosesOneBit := by
  intro accHigh accLow a b
  have hlow := (multiplyAccumulate accHigh accLow a b).low.isLt
  have hhigh := (multiplyAccumulate accHigh accLow a b).high.isLt
  exact eq_mod_and_carry_of_split (by omega) (multiplyAccumulate_exact accHigh accLow a b)

/-- Settles O52: the sum is `multiplyAccumulate3_toNat`; the low two words are formed as in the two-word primitive. -/
theorem multiplyAccumulate3KeepsTheBit : Obligations.MultiplyAccumulate3KeepsTheBit :=
  fun acc a b => ⟨multiplyAccumulate3_toNat acc a b, rfl, rfl⟩

end Sys2Proof.Machine
end

section
/-! SUPPORT. ADD and SUB (R54, R56, R57): a command's one word and its check of two sources, what each of the two writes, and
that SUB undoes ADD. -/

namespace Sys2Proof.Machine

/-! ### A command's one word, and the checked reading of two sources (R40, R44, R83) -/

theorem decode_eq_ok_iff_eq_encode {i : Instr} (hi : i.wellFormed = true) (w : CommandWord) :
    decode w = .ok i ↔ w = encode i := by
  rw [decode_eq_ok_iff, and_iff_right hi, eq_comm]

theorem checkedExec_of_sources_written {i : Instr} {s : State} (h : ∀ r ∈ sources i, s.isWritten r = true) :
    checkedExec i s = exec i s := by
  simp only [checkedExec, firstUnwritten_eq_none.mpr h]

theorem checksBothSources {i : Instr} {rs1 rs2 : Reg} (hsrc : sources i = [rs1, rs2]) : ChecksBothSources i rs1 rs2 := by
  intro s
  refine ⟨checkedExec_of_first_unwritten hsrc, fun h1 h2 => ?_, fun h1 h2 => checkedExec_of_sources_written ?_⟩
  · have hfirst : s.firstUnwritten (sources i) = some rs2 := by simp [State.firstUnwritten, hsrc, h1, h2]
    simp only [checkedExec, hfirst]
  · simp [hsrc, h1, h2]

/-! ### What ADD and SUB write (R54, R56) -/

/-- The borrow chain's limbs are the difference modulo 2^(64·N), with the mathematical modulus (R55). -/
theorem val_rippleSub_emod {a b : Value} (h : a.length = b.length) :
    (val (rippleSub a b).1 : Int) = ((val a : Int) - val b) % (2 ^ (64 * a.length) : Int) := by
  have hlt := val_lt (rippleSub a b).1
  rw [length_rippleSub, ← h, Nat.min_self] at hlt
  have hexact : val (rippleSub a b).1 + val b + 0 = val a + 2 ^ (64 * a.length) * (rippleSub a b).2.toNat :=
    rippleSubFrom_exact false h
  have hsplit : (val (rippleSub a b).1 : Int) =
      ((val a : Int) - val b) + (2 ^ (64 * a.length) : Nat) * (rippleSub a b).2.toNat := by
    zify at hexact
    push_cast
    linear_combination hexact
  exact_mod_cast (eq_emod_and_borrow_of_split hlt hsplit).1

theorem exec_add_effect (rd rs1 rs2 : Reg) {s : State} (hs : s.WF) :
    ∃ t, exec (.add rd rs1 rs2) s = .next t ∧
      t.regVal rd = (s.regVal rs1 + s.regVal rs2) % 2 ^ s.width ∧
      t.flag = decide (2 ^ s.width ≤ s.regVal rs1 + s.regVal rs2) ∧
      WritesOnly [rd] s t := by
  have hlen : (s.readReg rs1).length = (s.readReg rs2).length := (hs rs1).trans (hs rs2).symm
  have hsum := val_rippleAdd hlen
  have hcarry := carryFlag_eq hlen
  rw [hs rs1] at hsum hcarry
  refine ⟨_, rfl, ?_, hcarry, (exec_writesOnly (i := .add rd rs1 rs2) rfl hs rfl).1⟩
  rw [State.regVal, readReg_setFlag, readReg_writeReg_self]
  exact hsum

theorem exec_sub_effect (rd rs1 rs2 : Reg) {s : State} (hs : s.WF) :
    ∃ t, exec (.sub rd rs1 rs2) s = .next t ∧
      (t.regVal rd : Int) = ((s.regVal rs1 : Int) - s.regVal rs2) % (2 ^ s.width : Int) ∧
      t.flag = decide (s.regVal rs1 < s.regVal rs2) ∧
      WritesOnly [rd] s t := by
  have hlen : (s.readReg rs1).length = (s.readReg rs2).length := (hs rs1).trans (hs rs2).symm
  have hdiff := val_rippleSub_emod hlen
  rw [hs rs1] at hdiff
  refine ⟨_, rfl, ?_, borrowFlag_eq hlen, (exec_writesOnly (i := .sub rd rs1 rs2) rfl hs rfl).1⟩
  rw [State.regVal, readReg_setFlag, readReg_writeReg_self]
  exact hdiff

/-! ### Taking b from the wrapped sum of a and b (R57) -/

theorem add_mod_sub_emod_cancel {a w : Nat} (ha : a < 2 ^ w) (b : Nat) :
    (((a + b) % 2 ^ w : Nat) - (b : Int)) % (2 ^ w : Int) = a := by
  push_cast
  rw [Int.emod_sub_emod, Int.add_sub_cancel]
  exact Int.emod_eq_of_lt (Int.natCast_nonneg a) (by exact_mod_cast ha)

/-- The wrapped sum is below b exactly when the sum wrapped: it is then a + b - p, and a < p. -/
theorem add_mod_lt_right_iff {a b p : Nat} (ha : a < p) (hb : b < p) : (a + b) % p < b ↔ p ≤ a + b := by
  by_cases hp : p ≤ a + b
  · have hmod : (a + b) % p = a + b - p := by rw [Nat.mod_eq_sub_mod hp, Nat.mod_eq_of_lt (by omega)]
    omega
  · rw [Nat.mod_eq_of_lt (Nat.lt_of_not_le hp)]
    omega

/-! ### The statements -/

/-- Settles O29: the carry chain's limbs and final carry are the split of the exact sum at 2^W. -/
theorem addWritesSumAndCarry : Obligations.AddWritesSumAndCarry := fun rd rs1 rs2 =>
  ⟨decode_eq_ok_iff_eq_encode rfl, fun _ => exec_add_effect rd rs1 rs2, checksBothSources rfl⟩

/-- Settles O30: the borrow chain's limbs and final borrow are the split of the exact difference at 2^W. -/
theorem subWritesDifferenceAndBorrow : Obligations.SubWritesDifferenceAndBorrow := fun rd rs1 rs2 =>
  ⟨decode_eq_ok_iff_eq_encode rfl, fun _ => exec_sub_effect rd rs1 rs2, checksBothSources rfl⟩

/-- Settles O44: the ADD leaves b as it was, so the SUB takes b from the wrapped sum, and N limbs are fixed by their number. -/
theorem subUndoesAdd : Obligations.SubUndoesAdd := by
  intro s rt ra rb rr hs hne
  obtain ⟨t, hadd, hsum, hcarry, hframe⟩ := exec_add_effect rt ra rb hs
  have ht : t.WF := hframe.wf hs
  have hW : t.width = s.width := congrArg LimbCount.width hframe.elsewhere.limbCount
  have hb : t.regVal rb = s.regVal rb := congrArg val (hframe.others rb (by simpa using hne.symm)).1
  obtain ⟨u, hsub, hdiff, hborrow, hframe'⟩ := exec_sub_effect rr rt rb ht
  rw [hsum, hb] at hdiff hborrow
  rw [hW, add_mod_sub_emod_cancel (hs.regVal_lt ra)] at hdiff
  have hlen : (u.readReg rr).length = (s.readReg ra).length := by
    rw [hframe'.wf ht rr, hframe'.elsewhere.limbCount, hframe.elsewhere.limbCount, hs ra]
  have hflag : u.flag = t.flag := by
    rw [hborrow, hcarry]
    exact decide_eq_decide.mpr (add_mod_lt_right_iff (hs.regVal_lt ra) (hs.regVal_lt rb))
  exact ⟨t, u, hadd, hsub, val_injective hlen (Int.ofNat_inj.mp hdiff), hflag⟩

end Sys2Proof.Machine
end

section
/-! SUPPORT. The comparisons (R58 to R64): the five commands as one form, a FLAG bit of two sources, the order of R64 among
their flags, and the source's zero formula under either shift. -/

namespace Sys2Proof.Machine

/-! ### The five compare commands (R59 to R63) -/

section Commands
variable (rs1 rs2 : Reg) (s : State)

theorem exec_cmpeq : exec (.cmpeq rs1 rs2) s = .next (s.setFlag (eqFlag (s.readReg rs1) (s.readReg rs2))) := rfl
theorem exec_cmplt : exec (.cmplt rs1 rs2) s = .next (s.setFlag (ltFlag (s.readReg rs1) (s.readReg rs2))) := rfl
theorem exec_cmplte : exec (.cmplte rs1 rs2) s = .next (s.setFlag (lteFlag (s.readReg rs1) (s.readReg rs2))) := rfl
theorem exec_cmpgt : exec (.cmpgt rs1 rs2) s = .next (s.setFlag (gtFlag (s.readReg rs1) (s.readReg rs2))) := rfl
theorem exec_cmpgte : exec (.cmpgte rs1 rs2) s = .next (s.setFlag (gteFlag (s.readReg rs1) (s.readReg rs2))) := rfl

end Commands

/-- The one argument of R59 to R63: a command that sets FLAG to a bit of its two sources writes the relation of their values
that the bit decides on sources of equal length, and no register. -/
theorem compare_effect {i : Instr} {rs1 rs2 : Reg} {flagOf : Value → Value → Bool} {R : Nat → Nat → Prop} [DecidableRel R]
    (hexec : ∀ s, exec i s = .next (s.setFlag (flagOf (s.readReg rs1) (s.readReg rs2))))
    (hflag : ∀ {a b : Value}, a.length = b.length → flagOf a b = decide (R (val a) (val b)))
    (s : State) (hs : s.WF) :
    ∃ t, exec i s = .next t ∧ t.flag = decide (R (s.regVal rs1) (s.regVal rs2)) ∧ WritesOnly [] s t :=
  ⟨_, hexec s, hflag ((hs rs1).trans (hs rs2).symm), writesOnly_setFlag s _⟩

/-! ### The source's zero formula ((d | -d) >> 63) ^ 1 (R58) -/

/-- Only 0 and the word with the top bit alone are their own negation, so d or -d has its top bit set unless d = 0. -/
theorem msb_or_neg {d : Limb} (h : d ≠ 0) : (d ||| -d).msb = true := by
  rw [BitVec.msb_or]
  cases hd : d.msb with
  | true => rfl
  | false =>
    have hmin : d ≠ BitVec.intMin 64 := BitVec.ne_intMin_of_msb_eq_false (by decide) hd
    rw [BitVec.msb_neg_of_ne_intMin_of_ne_zero hmin h, hd]
    rfl

/-- A logical shift by 63 leaves the top bit alone. -/
theorem ushiftRight_63 (x : Limb) : x >>> 63 = bitLimb x.msb := by
  apply BitVec.eq_of_toNat_eq
  have hlt := x.isLt
  rw [BitVec.toNat_ushiftRight, Nat.shiftRight_eq_div_pow, bitLimb_toNat, BitVec.msb_eq_decide]
  by_cases hx : 2 ^ (64 - 1) ≤ x.toNat
  · rw [decide_eq_true hx, Bool.toNat_true]
    omega
  · rw [decide_eq_false hx, Bool.toNat_false]
    omega

/-- An arithmetic shift by 63 of a word with its top bit set fills the word with ones. -/
theorem sshiftRight_63_of_msb {x : Limb} (h : x.msb = true) : x.sshiftRight 63 = 0xFFFFFFFFFFFFFFFF := by
  rw [BitVec.sshiftRight_eq_of_msb_true h, ushiftRight_63, BitVec.msb_not, h]
  rfl

theorem isZero_eq_decide (d : Limb) : isZero d = decide (d = 0) := rfl

theorem zeroFormulaLogical_eq (d : Limb) : zeroFormulaLogical d = if d = 0 then 1 else 0 := by
  split
  · next h => rw [h]; rfl
  · next h => rw [zeroFormulaLogical, ushiftRight_63, msb_or_neg h]; rfl

theorem zeroFormulaArithmetic_eq (d : Limb) : zeroFormulaArithmetic d = if d = 0 then 1 else 0xFFFFFFFFFFFFFFFE := by
  split
  · next h => rw [h]; rfl
  · next h => rw [zeroFormulaArithmetic, sshiftRight_63_of_msb (msb_or_neg h)]; rfl

/-- A word that is 1 for d = 0 and even for every other d has the zero test of d as its bit 0. -/
theorem getLsbD_zero_of_zero_test {d even : Limb} (heven : even.getLsbD 0 = false) :
    (if d = 0 then 1 else even).getLsbD 0 = isZero d := by
  rw [isZero_eq_decide]
  split
  · next h => rw [decide_eq_true h]; rfl
  · next h => rw [decide_eq_false h, heven]

/-! ### The statements -/

/-- Settles O31: the OR of the limb differences is 0 exactly when the two values are equal. -/
theorem cmpeqFlagsEqual : Obligations.CmpeqFlagsEqual := fun rs1 rs2 =>
  ⟨decode_eq_ok_iff_eq_encode rfl, compare_effect (R := (· = ·)) (exec_cmpeq rs1 rs2) eqFlag_eq, checksBothSources rfl⟩

/-- Settles O32: the subtraction of b from a borrows exactly when a is below b. -/
theorem cmpltFlagsLess : Obligations.CmpltFlagsLess := fun rs1 rs2 =>
  ⟨decode_eq_ok_iff_eq_encode rfl, compare_effect (R := (· < ·)) (exec_cmplt rs1 rs2) ltFlag_eq, checksBothSources rfl⟩

/-- Settles O33: LT(a, b) | EQ(a, b) is [a <= b]. -/
theorem cmplteFlagsLessOrEqual : Obligations.CmplteFlagsLessOrEqual := fun rs1 rs2 =>
  ⟨decode_eq_ok_iff_eq_encode rfl, compare_effect (R := (· ≤ ·)) (exec_cmplte rs1 rs2) lteFlag_eq, checksBothSources rfl⟩

/-- Settles O34: LT with its operands swapped is [a > b]. -/
theorem cmpgtFlagsGreater : Obligations.CmpgtFlagsGreater := fun rs1 rs2 =>
  ⟨decode_eq_ok_iff_eq_encode rfl, compare_effect (R := (· > ·)) (exec_cmpgt rs1 rs2) gtFlag_eq, checksBothSources rfl⟩

/-- Settles O35: LT(b, a) | EQ(a, b) is [a >= b]. -/
theorem cmpgteFlagsGreaterOrEqual : Obligations.CmpgteFlagsGreaterOrEqual := fun rs1 rs2 =>
  ⟨decode_eq_ok_iff_eq_encode rfl, compare_effect (R := (· ≥ ·)) (exec_cmpgte rs1 rs2) gteFlag_eq, checksBothSources rfl⟩

/-- Settles O45: the commands write the flags of R64 on two values of N limbs each, and GT(a, b) is LT(b, a) itself. -/
theorem comparisonsAreATotalOrder : Obligations.ComparisonsAreATotalOrder := by
  intro s ra rb hs
  have hlen : (s.readReg ra).length = (s.readReg rb).length := (hs ra).trans (hs rb).symm
  have hgt : gtFlag (s.readReg ra) (s.readReg rb) = ltFlag (s.readReg rb) (s.readReg ra) := rfl
  exact ⟨_, _, _, _, _, _, exec_cmplt ra rb s, exec_cmplt rb ra s, exec_cmpeq ra rb s, exec_cmplte ra rb s,
    exec_cmpgt ra rb s, exec_cmpgte ra rb s, ltFlag_eq hlen, ltFlag_trichotomy hlen, lteFlag_eq_not_ltFlag hlen, hgt,
    gteFlag_eq_not_ltFlag hlen⟩

/-- Settles O53: d | -d has its top bit set unless d = 0; the formula is then 0 or 0xFFFFFFFFFFFFFFFE, even either way. -/
theorem zeroTestIsBitZeroOfTheFormula : Obligations.ZeroTestIsBitZeroOfTheFormula := by
  intro d
  refine ⟨isZero_eq_decide d, zeroFormulaLogical_eq d, zeroFormulaArithmetic_eq d, ?_, ?_⟩
  · rw [zeroFormulaLogical_eq, getLsbD_zero_of_zero_test rfl]
  · rw [zeroFormulaArithmetic_eq, getLsbD_zero_of_zero_test rfl]

end Sys2Proof.Machine
end

section
/-! SUPPORT. The limb-wise logic (R65 to R68): AND, OR and XOR as one form, a unit of two sources that acts on each limb alone,
and NOT, whose complement is also a number. None of the four writes FLAG. -/

namespace Sys2Proof.Machine

/-! ### The four logic commands (R65 to R68) -/

section Commands
variable (rd rs1 rs2 : Reg) (s : State)

theorem exec_and : exec (.and rd rs1 rs2) s = .next (s.writeReg rd (limbwiseAnd (s.readReg rs1) (s.readReg rs2))) := rfl
theorem exec_or : exec (.or rd rs1 rs2) s = .next (s.writeReg rd (limbwiseOr (s.readReg rs1) (s.readReg rs2))) := rfl
theorem exec_xor : exec (.xor rd rs1 rs2) s = .next (s.writeReg rd (limbwiseXor (s.readReg rs1) (s.readReg rs2))) := rfl
theorem exec_not : exec (.not rd rs1) s = .next (s.writeReg rd (limbwiseNot (s.readReg rs1))) := rfl

end Commands

/-- The one argument of R65 to R67: a command that writes a unit of its two sources to RD writes `op` of their limbs to each
limb, where the unit keeps the length and does `op` to each limb of sources of equal length; FLAG stays. -/
theorem limbwise_effect {i : Instr} {rd rs1 rs2 : Reg} {unit : Value → Value → Value} {op : Limb → Limb → Limb}
    (hexec : ∀ s, exec i s = .next (s.writeReg rd (unit (s.readReg rs1) (s.readReg rs2))))
    (hlength : ∀ a b, (unit a b).length = min a.length b.length)
    (hlimb : ∀ {a b : Value}, a.length = b.length → ∀ k : Nat, limbAt (unit a b) k = op (limbAt a k) (limbAt b k))
    (s : State) (hs : s.WF) :
    ∃ t, exec i s = .next t ∧
      (∀ j : Nat, j < s.limbCount.count →
        limbAt (t.readReg rd) j = op (limbAt (s.readReg rs1) j) (limbAt (s.readReg rs2) j)) ∧
      t.flag = s.flag ∧ WritesOnly [rd] s t := by
  have hlen : (unit (s.readReg rs1) (s.readReg rs2)).length = s.limbCount.count := by
    rw [hlength, hs rs1, hs rs2, Nat.min_self]
  refine ⟨_, hexec s, fun j _ => ?_, rfl, writesOnly_writeReg s rd hlen⟩
  rw [readReg_writeReg_self, hlimb ((hs rs1).trans (hs rs2).symm)]

/-- The complement of N limbs is the number 2^W - 1 - a (R68). -/
theorem val_limbwiseNot_eq_sub (a : Value) : val (limbwiseNot a) = 2 ^ (64 * a.length) - 1 - val a := by
  have hsum := val_limbwiseNot a
  omega

theorem exec_not_effect (rd rs1 : Reg) {s : State} (hs : s.WF) :
    ∃ t, exec (.not rd rs1) s = .next t ∧
      (∀ j : Nat, j < s.limbCount.count → limbAt (t.readReg rd) j = ~~~limbAt (s.readReg rs1) j) ∧
      t.regVal rd = 2 ^ s.width - 1 - s.regVal rs1 ∧ t.flag = s.flag ∧ WritesOnly [rd] s t := by
  have hlen : (limbwiseNot (s.readReg rs1)).length = s.limbCount.count := (length_limbwiseNot _).trans (hs rs1)
  refine ⟨_, exec_not rd rs1 s, fun j hj => ?_, ?_, rfl, writesOnly_writeReg s rd hlen⟩
  · rw [readReg_writeReg_self, limbAt_limbwiseNot _ ((hs rs1).symm ▸ hj)]
  · rw [State.regVal, readReg_writeReg_self, val_limbwiseNot_eq_sub, hs rs1]
    rfl

/-! ### The checked reading of one source (R83) -/

theorem checksOneSource {i : Instr} {rs1 : Reg} (hsrc : sources i = [rs1]) : ChecksOneSource i rs1 := fun _ =>
  ⟨checkedExec_of_first_unwritten hsrc, fun h1 => checkedExec_of_sources_written (by simpa [hsrc] using h1)⟩

/-! ### The statements -/

/-- Settles O36: the AND unit acts on each limb alone, and the sources have N limbs each. -/
theorem andIsLimbwise : Obligations.AndIsLimbwise := fun rd rs1 rs2 =>
  ⟨decode_eq_ok_iff_eq_encode rfl,
    limbwise_effect (op := (· &&& ·)) (exec_and rd rs1 rs2) length_limbwiseAnd limbAt_limbwiseAnd, checksBothSources rfl⟩

/-- Settles O37: the OR unit acts on each limb alone, and the sources have N limbs each. -/
theorem orIsLimbwise : Obligations.OrIsLimbwise := fun rd rs1 rs2 =>
  ⟨decode_eq_ok_iff_eq_encode rfl,
    limbwise_effect (op := (· ||| ·)) (exec_or rd rs1 rs2) length_limbwiseOr limbAt_limbwiseOr, checksBothSources rfl⟩

/-- Settles O38: the XOR unit acts on each limb alone, and the sources have N limbs each. -/
theorem xorIsLimbwise : Obligations.XorIsLimbwise := fun rd rs1 rs2 =>
  ⟨decode_eq_ok_iff_eq_encode rfl,
    limbwise_effect (op := (· ^^^ ·)) (exec_xor rd rs1 rs2) length_limbwiseXor limbAt_limbwiseXor, checksBothSources rfl⟩

/-- Settles O39: a value and its complement add up to all ones, 2^W - 1, and RS1 is the one register that NOT reads. -/
theorem notIsLimbwiseComplement : Obligations.NotIsLimbwiseComplement := fun rd rs1 =>
  ⟨decode_eq_ok_iff_eq_encode rfl, fun _ => exec_not_effect rd rs1, checksOneSource rfl⟩

end Sys2Proof.Machine
end

section
/-! SUPPORT. The multiplier (R69 to R74): any number of columns is the product modulo its place, each column total and its
bounds, and what MUL and MULF write. -/

namespace Sys2Proof.Machine

/-! ### Any number of columns (R69) -/

theorem columnSum_of_past_product {n : Nat} (hn : 0 < n) (a b : Value) {k : Nat} (hk : 2 * n ≤ k) :
    columnSum n a b k = 0 := by
  have hempty : columnIndices n k = [] := List.eq_nil_iff_forall_not_mem.mpr fun i hi => by
    have hmem := (mem_columnIndices hn).mp hi
    omega
  rw [columnSum, hempty]
  rfl

/-- Column sums past column 2N add nothing to the product. -/
theorem sum_columns_past_product {n : Nat} (hn : 0 < n) {a b : Value} (ha : a.length = n) (hb : b.length = n) (cols : Nat) :
    ∑ k ∈ Finset.range (2 * n + cols), 2 ^ (64 * k) * columnSum n a b k = val a * val b := by
  rw [Finset.sum_range_add, sum_columns_eq_product hn ha hb, Finset.sum_eq_zero, Nat.add_zero]
  intro j _
  rw [columnSum_of_past_product hn a b (Nat.le_add_right _ _), Nat.mul_zero]

/-- The columns from `cols` up are multiples of 2^(64·cols), so the ones below are the product modulo it. -/
theorem sum_columns_mod {n : Nat} (hn : 0 < n) {a b : Value} (ha : a.length = n) (hb : b.length = n) (cols : Nat) :
    (∑ k ∈ Finset.range cols, 2 ^ (64 * k) * columnSum n a b k) % 2 ^ (64 * cols) = val a * val b % 2 ^ (64 * cols) := by
  have hrest : 2 ^ (64 * cols) ∣ ∑ j ∈ Finset.range (2 * n), 2 ^ (64 * (cols + j)) * columnSum n a b (cols + j) :=
    Finset.dvd_sum fun j _ => Dvd.dvd.mul_right (Nat.pow_dvd_pow 2 (by omega)) _
  rw [← sum_columns_past_product hn ha hb cols, Nat.add_comm (2 * n), Finset.sum_range_add, Nat.add_mod,
    Nat.mod_eq_zero_of_dvd hrest, Nat.add_zero, Nat.mod_mod]

theorem val_mulColumns {n : Nat} (hn : 0 < n) (hn' : n ≤ 16) {a b : Value} (ha : a.length = n) (hb : b.length = n)
    (cols : Nat) : val (mulColumns n a b cols) = val a * val b % 2 ^ (64 * cols) := by
  have hlt := val_lt (mulColumns n a b cols)
  rw [length_mulColumns] at hlt
  have hexact := columnTotals_exact hn hn' a b cols 0 (carry := Accumulator.zero) (by simp)
  simp only [Nat.zero_add, Accumulator.toNat_zero] at hexact
  rw [← sum_columns_mod hn ha hb, ← hexact, Nat.add_mul_mod_self_left]
  exact (Nat.mod_eq_of_lt hlt).symm

theorem Accumulator.eq_zero_of_toNat {acc : Accumulator} (h : acc.toNat = 0) : acc = Accumulator.zero := by
  obtain ⟨top, high, low⟩ := acc
  have hwords : low.toNat + 2 ^ 64 * high.toNat + 2 ^ 128 * top.toNat = 0 := h
  have htop : top = 0 := BitVec.eq_of_toNat_eq (show top.toNat = 0 by omega)
  have hhigh : high = 0 := BitVec.eq_of_toNat_eq (show high.toNat = 0 by omega)
  have hlow : low = 0 := BitVec.eq_of_toNat_eq (show low.toNat = 0 by omega)
  rw [htop, hhigh, hlow]
  rfl

theorem carryOut_getLast? {totals : List Accumulator} (h : totals ≠ []) (carry : Accumulator) :
    totals.getLast?.map Accumulator.carryOut = some (lastCarry carry totals) := by
  rw [lastCarry, List.getLastD_eq_getLast?, List.getLast?_map, List.getLast?_eq_some_getLast h]
  rfl

/-! ### One column's total and its bounds (R70) -/

/-- Total j is column k + j's, over a carry into it that obeys the bound (R69, R70). -/
theorem columnTotals_getElem {n : Nat} (hn : 0 < n) (hn' : n ≤ 16) (a b : Value) (cols k : Nat) {carry : Accumulator}
    (hc : carry.toNat ≤ n * 2 ^ 64 - n) {j : Nat} (hj : j < (columnTotals n a b cols k carry).length) :
    ∃ c : Accumulator, c.toNat ≤ n * 2 ^ 64 - n ∧
      (columnTotals n a b cols k carry)[j] = addColumn n a b (k + j) c := by
  induction cols generalizing k carry j with
  | zero => exact absurd hj (Nat.not_lt_zero j)
  | succ cols ih =>
    cases j with
    | zero => exact ⟨carry, hc, rfl⟩
    | succ j =>
      obtain ⟨c, hcarry, htotal⟩ := ih (k + 1) (carryOut_le hn hn' a b k hc) (Nat.lt_of_succ_lt_succ hj)
      exact ⟨c, hcarry, by rw [← Nat.add_assoc, Nat.add_right_comm, ← htotal]; rfl⟩

/-- The carry in and the column's n products make up at most n·2^64·(2^64 - 1), and what is above the low word is carried. -/
theorem columnTotals_lt {n : Nat} (hn : 0 < n) (hn' : n ≤ 16) (a b : Value) (cols : Nat) :
    ∀ total ∈ columnTotals n a b cols 0 Accumulator.zero,
      total.toNat < n * 2 ^ 128 ∧ total.carryOut.toNat < n * 2 ^ 64 := by
  intro total hmem
  obtain ⟨j, hj, rfl⟩ := List.mem_iff_getElem.mp hmem
  obtain ⟨c, hc, htotal⟩ := columnTotals_getElem hn hn' a b cols 0 (Nat.zero_le _) hj
  have hsum := columnSum_le n a b (0 + j)
  have hcarry := carryOut_le hn hn' a b (0 + j) hc
  rw [htotal, addColumn_toNat hn hn' a b (0 + j) hc]
  omega

theorem two_pow_log2_count (n : LimbCount) : 2 ^ Nat.log2 n.count = n.count := by cases n <;> decide

/-! ### All-ones operands (R70) -/

/-- The greatest value of n limbs, whose column totals are the greatest too. -/
def allOnes (n : Nat) : Value := List.replicate n 0xFFFFFFFFFFFFFFFF

theorem limbNat_allOnes {n i : Nat} (hi : i < n) : limbNat (allOnes n) i = 2 ^ 64 - 1 := by
  rw [limbNat, allOnes, List.getD_eq_getElem _ _ (by simpa using hi), List.getElem_replicate]
  rfl

/-- Column N - 1 holds N products, each the greatest that two limbs have. -/
theorem columnSum_allOnes {n : Nat} (hn : 0 < n) :
    columnSum n (allOnes n) (allOnes n) (n - 1) = n * ((2 ^ 64 - 1) * (2 ^ 64 - 1)) := by
  have hterm : ∀ i ∈ Finset.range n,
      (if i ≤ n - 1 ∧ n - 1 < i + n then limbNat (allOnes n) i * limbNat (allOnes n) (n - 1 - i) else 0) =
        (2 ^ 64 - 1) * (2 ^ 64 - 1) := fun i hi => by
    have hi := Finset.mem_range.mp hi
    rw [if_pos (by omega), limbNat_allOnes hi, limbNat_allOnes (by omega)]
  rw [columnSum_eq hn, Finset.sum_congr rfl hterm, Finset.sum_const, Finset.card_range, smul_eq_mul]

theorem exists_large_total_allOnes {n : Nat} (hn : 0 < n) (hn' : n ≤ 16) :
    ∃ total ∈ columnTotals n (allOnes n) (allOnes n) (2 * n) 0 Accumulator.zero, 2 ^ 127 * n ≤ total.toNat := by
  have hj : n - 1 < (columnTotals n (allOnes n) (allOnes n) (2 * n) 0 Accumulator.zero).length := by
    rw [length_columnTotals]
    omega
  obtain ⟨c, hc, htotal⟩ := columnTotals_getElem hn hn' _ _ _ 0 (Nat.zero_le _) hj
  refine ⟨_, List.getElem_mem hj, ?_⟩
  rw [htotal, addColumn_toNat hn hn' _ _ _ hc, Nat.zero_add, columnSum_allOnes hn]
  omega

/-! ### What MUL and MULF write (R71 to R74) -/

section Commands
variable (rd rd2 rs1 rs2 : Reg) (s : State)

theorem exec_mul : exec (.mul rd rs1 rs2) s =
    .next ((s.writeReg rd (lowHalf s.limbCount.count (s.product rs1 rs2))).setFlag
      (overflowFlag s.limbCount.count (s.product rs1 rs2))) := rfl

theorem exec_mulf_of_ne (h : rd ≠ rd2) : exec (.mulf rd rd2 rs1 rs2) s =
    .next ((s.writeReg rd (lowHalf s.limbCount.count (s.product rs1 rs2))).writeReg rd2
      (highHalf s.limbCount.count (s.product rs1 rs2))) := if_neg h

theorem exec_mulf_same : exec (.mulf rd rd rs1 rs2) s = .next s.takeIllegalCommand := if_pos rfl

end Commands

/-- The product's two halves as numbers, in a well-formed state. -/
theorem val_product_halves {s : State} (hs : s.WF) (rs1 rs2 : Reg) :
    val (lowHalf s.limbCount.count (s.product rs1 rs2)) = s.regVal rs1 * s.regVal rs2 % 2 ^ s.width ∧
      val (highHalf s.limbCount.count (s.product rs1 rs2)) = s.regVal rs1 * s.regVal rs2 / 2 ^ s.width :=
  val_lowHalf_highHalf (count_pos _) (count_le _) (hs rs1) (hs rs2)

theorem overflowFlag_product {s : State} (hs : s.WF) (rs1 rs2 : Reg) :
    overflowFlag s.limbCount.count (s.product rs1 rs2) = decide (2 ^ s.width ≤ s.regVal rs1 * s.regVal rs2) :=
  overflowFlag_eq (count_pos _) (count_le _) (hs rs1) (hs rs2)

/-- 2N limbs are fixed by their number, and the numbers commute (R74). -/
theorem product_comm {s : State} (hs : s.WF) (rs1 rs2 : Reg) : s.product rs2 rs1 = s.product rs1 rs2 := by
  have hval (r r' : Reg) : val (s.product r r') = s.regVal r * s.regVal r' :=
    (mulColumns_exact (count_pos _) (count_le _) (hs r) (hs r')).2
  refine val_injective (by simp only [State.product, length_mulColumns]) ?_
  rw [hval, hval, Nat.mul_comm]

theorem exec_mul_effect (rd rs1 rs2 : Reg) {s : State} (hs : s.WF) :
    ∃ t, exec (.mul rd rs1 rs2) s = .next t ∧
      t.regVal rd = s.regVal rs1 * s.regVal rs2 % 2 ^ s.width ∧
      t.flag = decide (2 ^ s.width ≤ s.regVal rs1 * s.regVal rs2) ∧
      WritesOnly [rd] s t := by
  refine ⟨_, exec_mul rd rs1 rs2 s, ?_, overflowFlag_product hs rs1 rs2,
    (exec_writesOnly (i := .mul rd rs1 rs2) rfl hs rfl).1⟩
  rw [State.regVal, readReg_setFlag, readReg_writeReg_self]
  exact (val_product_halves hs rs1 rs2).1

theorem exec_mulf_effect {rd rd2 : Reg} (hne : rd ≠ rd2) (rs1 rs2 : Reg) {s : State} (hs : s.WF) :
    ∃ t, exec (.mulf rd rd2 rs1 rs2) s = .next t ∧
      t.regVal rd = s.regVal rs1 * s.regVal rs2 % 2 ^ s.width ∧
      t.regVal rd2 = s.regVal rs1 * s.regVal rs2 / 2 ^ s.width ∧
      t.flag = s.flag ∧
      WritesOnly [rd, rd2] s t := by
  obtain ⟨hlow, hhigh⟩ := val_product_halves hs rs1 rs2
  have hexec := exec_mulf_of_ne rd rd2 rs1 rs2 s hne
  refine ⟨_, hexec, ?_, ?_, rfl, (exec_writesOnly (i := .mulf rd rd2 rs1 rs2) (bne_iff_ne.mpr hne) hs hexec).1⟩
  · rw [State.regVal, readReg_writeReg_of_ne _ _ hne, readReg_writeReg_self]
    exact hlow
  · rw [State.regVal, readReg_writeReg_self]
    exact hhigh

theorem exec_mul_comm (rd rs1 rs2 : Reg) {s : State} (hs : s.WF) : exec (.mul rd rs2 rs1) s = exec (.mul rd rs1 rs2) s := by
  rw [exec_mul, exec_mul, product_comm hs]

theorem exec_mulf_comm {rd rd2 : Reg} (hne : rd ≠ rd2) (rs1 rs2 : Reg) {s : State} (hs : s.WF) :
    exec (.mulf rd rd2 rs2 rs1) s = exec (.mulf rd rd2 rs1 rs2) s := by
  rw [exec_mulf_of_ne _ _ _ _ _ hne, exec_mulf_of_ne _ _ _ _ _ hne, product_comm hs]

/-! ### The statements -/

/-- Settles O40: the low N columns are the product modulo 2^W, and any nonzero limb above them is FLAG. -/
theorem mulWritesLowProductAndOverflow : Obligations.MulWritesLowProductAndOverflow := fun rd rs1 rs2 =>
  ⟨decode_eq_ok_iff_eq_encode rfl, fun _ => exec_mul_effect rd rs1 rs2, checksBothSources rfl⟩

/-- Settles O41: the two halves are the product's remainder and quotient by 2^W; with RD = RD2 the command is ill-formed. -/
theorem mulfWritesTheWholeProduct : Obligations.MulfWritesTheWholeProduct := by
  intro rd rd2 rs1 rs2
  constructor
  · intro hne
    refine ⟨decode_eq_ok_iff_eq_encode (bne_iff_ne.mpr hne), fun s hs => ?_, checksBothSources rfl⟩
    obtain ⟨t, hexec, hlow, hhigh, hflag, hframe⟩ := exec_mulf_effect hne rs1 rs2 hs
    exact ⟨t, hexec, hlow, hhigh, by rw [hlow, hhigh, Nat.mod_add_div], hflag, hframe⟩
  · rintro rfl
    refine ⟨fun w hw => ?_, exec_mulf_same rd rs1 rs2⟩
    exact bne_iff_ne.mp (decode_eq_ok_iff.mp hw).1 rfl

/-- Settles O46: MUL and MULF write halves of one product; its low N limbs are fixed by their number, and it commutes. -/
theorem mulAndMulfAgree : Obligations.MulAndMulfAgree := by
  intro s ra rb rd rlo rhi hs hne
  obtain ⟨m, hmul, hlow, hflag, hframe⟩ := exec_mul_effect rd ra rb hs
  obtain ⟨f, hmulf, hlow', hhigh', -, hframe'⟩ := exec_mulf_effect hne ra rb hs
  refine ⟨m, m, f, f, hmul, (exec_mul_comm rd ra rb hs).trans hmul, hmulf, (exec_mulf_comm hne ra rb hs).trans hmulf,
    hflag, val_injective ?_ (hlow'.trans hlow.symm), ?_, rfl, rfl⟩
  · exact (hframe'.written rlo (by simp)).2.trans (hframe.written rd (by simp)).2.symm
  · rw [hhigh', hflag, Nat.div_eq_zero_iff_lt (Nat.two_pow_pos _), decide_eq_false_iff_not, Nat.not_le]

/-- Settles O54: K columns keep the product's part below 2^(64·K); at K = 2N nothing is left above it. -/
theorem columnsGiveTheProduct : Obligations.ColumnsGiveTheProduct := by
  intro n a b ha hb
  obtain ⟨hcarry, hproduct⟩ := mulColumns_exact (count_pos n) (count_le n) ha hb
  refine ⟨val_mulColumns (count_pos n) (count_le n) ha hb, hproduct, ?_⟩
  have hpos := count_pos n
  have hne : columnTotals n.count a b (2 * n.count) 0 Accumulator.zero ≠ [] :=
    List.ne_nil_of_length_pos (by rw [length_columnTotals]; omega)
  rw [carryOut_getLast? hne Accumulator.zero, Accumulator.eq_zero_of_toNat hcarry]

/-- Settles O55: a carry of at most N·2^64 - N and N products make up a total below N·2^128, which carries as little again;
all-ones operands have N·(2^64 - 1)^2 in column N - 1. -/
theorem columnTotalsAreBounded : Obligations.ColumnTotalsAreBounded := by
  refine ⟨fun n a b _ _ total hmem => ?_, fun n => ?_⟩
  · obtain ⟨hbound, hcarry⟩ := columnTotals_lt (count_pos n) (count_le n) a b _ total hmem
    rw [Nat.pow_add, two_pow_log2_count, Nat.mul_comm (2 ^ 128)]
    exact ⟨hbound, hcarry, hbound⟩
  · rw [Nat.pow_add, two_pow_log2_count]
    exact exists_large_total_allOnes (count_pos n) (count_le n)

end Sys2Proof.Machine
end

section
/-! SUPPORT. The shifts (R75, R77 to R79): SHL and SHR as one form, a unit of RS1 and the amount masked to W, and the identity
at the multiples of W. Neither writes FLAG. -/

namespace Sys2Proof.Machine

/-! ### What SHL and SHR write (R77, R78) -/

section Commands
variable (rd rs1 rs2 : Reg) (s : State)

theorem exec_shl : exec (.shl rd rs1 rs2) s =
    .next (s.writeReg rd (shiftLeft s.limbCount.count (s.readReg rs1) (maskedAmount s.limbCount (s.readReg rs2)))) := rfl
theorem exec_shr : exec (.shr rd rs1 rs2) s =
    .next (s.writeReg rd (shiftRight s.limbCount.count (s.readReg rs1) (maskedAmount s.limbCount (s.readReg rs2)))) := rfl

end Commands

/-- The one argument of R77 and R78: a command that writes to RD a unit of RS1 and of RS2's masked amount writes the number
`shifted W a sm` that the unit computes, where sm is limb 0 of RS2 modulo W (R75); FLAG stays. -/
theorem shift_effect {i : Instr} {rd rs1 rs2 : Reg} {unit : Nat → Value → Limb → Value} {shifted : Nat → Nat → Nat → Nat}
    (hexec : ∀ s, exec i s =
      .next (s.writeReg rd (unit s.limbCount.count (s.readReg rs1) (maskedAmount s.limbCount (s.readReg rs2)))))
    (hlength : ∀ n a sm, (unit n a sm).length = n)
    (hval : ∀ a sm, val (unit a.length a sm) = shifted (64 * a.length) (val a) sm.toNat)
    (s : State) (hs : s.WF) :
    ∃ t, exec i s = .next t ∧
      t.regVal rd = shifted s.width (s.regVal rs1) ((limbAt (s.readReg rs2) 0).toNat % s.width) ∧
      t.flag = s.flag ∧ WritesOnly [rd] s t := by
  refine ⟨_, hexec s, ?_, rfl, writesOnly_writeReg s rd (hlength _ _ _)⟩
  have hunit := hval (s.readReg rs1) (maskedAmount s.limbCount (s.readReg rs2))
  rw [hs rs1, maskedAmount_toNat] at hunit
  rw [State.regVal, readReg_writeReg_self]
  exact hunit

theorem exec_shl_effect (rd rs1 rs2 : Reg) (s : State) (hs : s.WF) :
    ∃ t, exec (.shl rd rs1 rs2) s = .next t ∧
      t.regVal rd = s.regVal rs1 * 2 ^ ((limbAt (s.readReg rs2) 0).toNat % s.width) % 2 ^ s.width ∧
      t.flag = s.flag ∧ WritesOnly [rd] s t :=
  shift_effect (shifted := fun w a sm => a * 2 ^ sm % 2 ^ w) (exec_shl rd rs1 rs2) length_shiftLeft val_shiftLeft s hs

theorem exec_shr_effect (rd rs1 rs2 : Reg) (s : State) (hs : s.WF) :
    ∃ t, exec (.shr rd rs1 rs2) s = .next t ∧
      t.regVal rd = s.regVal rs1 / 2 ^ ((limbAt (s.readReg rs2) 0).toNat % s.width) ∧
      t.flag = s.flag ∧ WritesOnly [rd] s t :=
  shift_effect (shifted := fun _ a sm => a / 2 ^ sm) (exec_shr rd rs1 rs2) length_shiftRight val_shiftRight s hs

/-! ### Equal numbers are equal limbs across a command (R9, R79) -/

/-- A command keeps N, and N limbs are fixed by their number. -/
theorem WritesOnly.readReg_eq_of_regVal_eq {dst : List Reg} {s t : State} (h : WritesOnly dst s t) (hs : s.WF) {r r' : Reg}
    (hval : t.regVal r = s.regVal r') : t.readReg r = s.readReg r' := by
  have hlen : (t.readReg r).length = (s.readReg r').length := by rw [h.wf hs r, h.elsewhere.limbCount, hs r']
  exact val_injective hlen hval

/-! ### The statements -/

/-- Settles O42: each output limb joins two neighbouring limbs of a, so bit p of the result is bit p - sm of a, below W. -/
theorem shlMultipliesByThePower : Obligations.ShlMultipliesByThePower := fun rd rs1 rs2 =>
  ⟨decode_eq_ok_iff_eq_encode rfl, exec_shl_effect rd rs1 rs2, checksBothSources rfl⟩

/-- Settles O43: each output limb joins two neighbouring limbs of a, so bit p of the result is bit p + sm of a. -/
theorem shrDividesByThePower : Obligations.ShrDividesByThePower := fun rd rs1 rs2 =>
  ⟨decode_eq_ok_iff_eq_encode rfl, exec_shr_effect rd rs1 rs2, checksBothSources rfl⟩

/-- Settles O47: the two effects; at a multiple of W the masked amount is 0, so either result is the number a, below 2^W. -/
theorem shiftLaws : Obligations.ShiftLaws := by
  intro s rd ra rs hs
  obtain ⟨l, hshl, hleft, -, hframe⟩ := exec_shl_effect rd ra rs s hs
  obtain ⟨r, hshr, hright, -, hframe'⟩ := exec_shr_effect rd ra rs s hs
  refine ⟨l, r, hshl, hshr, hright, hleft, fun hdvd => ?_⟩
  have hzero : (limbAt (s.readReg rs) 0).toNat % s.width = 0 := Nat.mod_eq_zero_of_dvd hdvd
  rw [hzero, pow_zero, Nat.mul_one, Nat.mod_eq_of_lt (hs.regVal_lt ra)] at hleft
  rw [hzero, pow_zero, Nat.div_one] at hright
  exact ⟨hframe.readReg_eq_of_regVal_eq hs hleft, hframe'.readReg_eq_of_regVal_eq hs hright⟩

end Sys2Proof.Machine
end

section
/-! SUPPORT. The exceptions (R81 to R84, R86, R94): what an illegal word does to the block, which exception an operation raises
and in what order, and how a checked step and a step of the hardware differ. -/

namespace Sys2Proof.Machine

/-! ### An illegal word (R82, R86) -/

theorem issue_of_not_decoded {w : CommandWord} (h : ∀ i, decode w ≠ .ok i) (s : State) :
    issue w s = .next s.nextCommand.takeIllegalCommand := by
  cases hd : decode w with
  | error e => simp only [issue, hd]
  | ok i => exact absurd hd (h i)

/-! ### The exception an operation raises (R81, R83, R84) -/

/-- R84's order: the marks are checked from the first register on. -/
theorem firstUnwritten_cons (s : State) (r : Reg) (rs : List Reg) :
    s.firstUnwritten (r :: rs) = if s.isWritten r then s.firstUnwritten rs else some r := by
  cases hr : s.isWritten r <;> simp [State.firstUnwritten, hr]

@[simp] theorem firstUnwritten_nil (s : State) : s.firstUnwritten [] = none := rfl

theorem mem_and_unwritten_of_firstUnwritten {s : State} {rs : List Reg} {r : Reg} (h : s.firstUnwritten rs = some r) :
    r ∈ rs ∧ s.isWritten r = false :=
  ⟨List.mem_of_find?_eq_some h, by simpa using List.find?_some h⟩

/-- The registers a command reads, as fields of its word: RS1 alone for the opcode of NOT, else RS1 and then RS2 (R40, R84). -/
theorem sources_of_decode {w : CommandWord} {i : Instr} (hd : decode w = .ok i) :
    sources i = if (opcField w).toNat = 0x0B then [rs1Field w] else [rs1Field w, rs2Field w] := by
  obtain ⟨-, rfl⟩ := wellFormed_and_encode_of_decode hd
  cases i with
  | not rd rs1 =>
    rw [encode, opcField_assembleFields (by decide), rs1Field_assembleFields (by decide)]
    rfl
  | add | sub | cmpeq | cmplt | cmplte | cmpgt | cmpgte | and | or | xor | mul | mulf | shl | shr =>
    rw [encode, opcField_assembleFields (by decide), rs1Field_assembleFields (by decide),
      rs2Field_assembleFields (by decide)]
    rfl

theorem raised_issue_of_decode {w : CommandWord} {i : Instr} (hd : decode w = .ok i) (s : State) :
    raised (.issue w) s = (s.firstUnwritten (sources i)).map .unwritten := by
  simp only [raised, hd]

theorem raised_readReg (r : Reg) (s : State) :
    raised (.readReg r) s = if s.isWritten r then none else some (.unwritten r) := by
  rw [raised, firstUnwritten_cons, firstUnwritten_nil]
  split <;> rfl

/-- Unwritten(r) is raised by an operation that reads V<r>, a ReadReg or a legal Issue, and only while V<r> is unwritten. -/
theorem unwritten_and_read_of_raised {op : PortOp} {s : State} {r : Reg} (h : raised op s = some (.unwritten r)) :
    s.isWritten r = false ∧ (op = .readReg r ∨ ∃ w i, op = .issue w ∧ decode w = .ok i ∧ r ∈ sources i) := by
  cases op with
  | writeReg | readStatus | reset => cases h
  | readReg r' =>
    rw [raised_readReg] at h
    split at h
    · cases h
    · next hr =>
      cases h
      exact ⟨Bool.eq_false_iff.mpr hr, .inl rfl⟩
  | issue w =>
    cases hd : decode w with
    | error e => simp [raised, hd] at h
    | ok i =>
      rw [raised_issue_of_decode hd, Option.map_eq_some_iff] at h
      obtain ⟨r', hfirst, hr'⟩ := h
      cases hr'
      obtain ⟨hmem, hr⟩ := mem_and_unwritten_of_firstUnwritten hfirst
      exact ⟨hr, .inr ⟨w, i, rfl, hd, hmem⟩⟩

/-! ### A checked step against a step of the hardware (R83) -/

/-- A checked step is the hardware's step, but for the fault Unwritten where the operation raises it. -/
theorem checkedStep_cases (s : State) :
    checkedStep s = step s ∨
      ∃ op rest r, s.pending = op :: rest ∧ raised op s = some (.unwritten r) ∧ checkedStep s = .fault (.unwritten r) := by
  cases hp : s.pending with
  | nil => exact .inl ((checkedStep_of_pending_nil hp).trans (step_of_pending_nil hp).symm)
  | cons op rest =>
    by_cases hr : ∃ r, raised op s = some (.unwritten r)
    · obtain ⟨r, hr⟩ := hr
      exact .inr ⟨op, rest, r, rfl, hr, checkedStep_of_unwritten hp hr⟩
    · exact .inl ((checkedStep_of_not_unwritten hp (not_exists.mp hr)).trans (step_of_pending_cons hp).symm)

/-- A step of the hardware completes or refuses a partial transfer; it never faults (R80, R86). -/
theorem step_ne_fault (s : State) (f : Fault) : step s ≠ .fault f := by
  intro h
  rcases stepStopsOnNoValue s with ⟨t, ht⟩ | ⟨r, v, rest, -, -, hrefused⟩
  · cases h.symm.trans ht
  · cases h.symm.trans hrefused

/-! ### The statements -/

/-- Settles O25: a word that decodes checks the marks of its own RS1 and RS2 fields in turn, or of RS1 alone for NOT. -/
theorem exceptionPriority : Obligations.ExceptionPriority := by
  intro s
  refine ⟨fun w h => (raised_issue_eq_illegalCommand_iff w s).mpr (not_exists.mpr h), ?_, ?_, ?_,
    fun r => raised_readReg r s, rfl, rfl, fun _ _ => rfl⟩
  · intro w i hd h1
    rw [raised_issue_of_decode hd, sources_of_decode hd]
    split <;> simp [firstUnwritten_cons, h1]
  · intro w i hd h1 hopc h2
    rw [raised_issue_of_decode hd, sources_of_decode hd, if_neg hopc]
    simp [firstUnwritten_cons, h1, h2]
  · intro w i hd h1 hnotOr2
    rw [raised_issue_of_decode hd, sources_of_decode hd]
    split
    · simp [firstUnwritten_cons, h1]
    · next hopc => simp [firstUnwritten_cons, h1, hnotOr2.resolve_left hopc]

/-- Settles O26: a checked step that does not fault is the hardware's step, and the fault names a register the operation reads. -/
theorem checkedStepRefinesStep : Obligations.CheckedStepRefinesStep := by
  refine ⟨fun s t h => ?_, fun s f h => ?_⟩
  · rcases checkedStep_cases s with hstep | ⟨op, rest, r, -, -, hfault⟩
    · exact hstep.symm.trans h
    · cases h.symm.trans hfault
  · rcases checkedStep_cases s with hstep | ⟨op, rest, r, hp, hraised, hfault⟩
    · exact absurd (hstep.symm.trans h) (step_ne_fault s f)
    · cases h.symm.trans hfault
      obtain ⟨hr, rfl | ⟨w, i, rfl, hd, hmem⟩⟩ := unwritten_and_read_of_raised hraised
      · exact ⟨r, rfl, hr, .inl ⟨rest, hp⟩⟩
      · exact ⟨r, rfl, hr, .inr ⟨w, i, rest, hp, hd, hmem⟩⟩

/-- Settles O8: the word leaves the list, the index moves past it, and IllegalCommand is taken, which is ILL alone. -/
theorem illegalWordOnlySetsIll : Obligations.IllegalWordOnlySetsIll := fun s _ rest hp h =>
  (step_of_pending_cons hp).trans (issue_of_not_decoded h (s.withPending rest))

/-- Settles O9: with an empty list the step performs nothing. -/
theorem idleStepKeepsTheState : Obligations.IdleStepKeepsTheState := fun _ => step_of_pending_nil

end Sys2Proof.Machine
end

section
/-! SUPPORT. Words of the spec (95_test_vectors.md), Reset() (R23, R95), and the check that a command's sources are written
(R96, R97). -/

namespace Sys2Proof.Machine

/-! ### Reset() as a step, and a ready command under the check -/

theorem step_of_reset {s : State} {rest : List PortOp} (hp : s.pending = .reset :: rest) :
    step s = .next (s.withPending rest).resetBlock := step_of_pending_cons hp

theorem ready_iff {s : State} {i : Instr} : s.ready i = true ↔ ∀ r ∈ sources i, s.isWritten r = true := List.all_eq_true

/-- A ready command raises no exception (R83, R96). -/
theorem raised_issue_of_ready {s : State} {w : CommandWord} {i : Instr} (hd : decode w = .ok i) (h : s.ready i = true) :
    raised (.issue w) s = none := by
  rw [raised_issue_of_decode hd, firstUnwritten_eq_none.mpr (ready_iff.mp h), Option.map_none]

theorem checkedStep_of_not_raised {s : State} {op : PortOp} {rest : List PortOp} (hp : s.pending = op :: rest)
    (h : raised op s = none) : checkedStep s = step s :=
  (checkedStep_of_not_unwritten hp (by simp [h])).trans (step_of_pending_cons hp).symm

/-! ### The statements -/

/-- Settles O27: a ready command raises nothing, so the checked step is the step, and that runs the command, which completes. -/
theorem readyCommandsPassTheCheck : Obligations.ReadyCommandsPassTheCheck := by
  intro s w i rest hp hd hready
  obtain ⟨t, hexec⟩ := exec_completes i (s.withPending rest).nextCommand
  have hstep : step s = .next t := (step_of_issue hp hd).trans hexec
  exact ⟨t, (checkedStep_of_not_raised hp (raised_issue_of_ready hd hready)).trans hstep, hstep⟩

/-- Settles O14: the step is `State.resetBlock` once the operation has left the host's list. -/
theorem resetOperationClearsFlagIllAndMarks : Obligations.ResetOperationClearsFlagIllAndMarks := by
  intro s rest hp
  have hregs (r : Reg) := And.intro (isWritten_resetBlock (s.withPending rest) r) (resetBlock_wf (s.withPending rest) r)
  exact ⟨_, step_of_reset hp, rfl, rfl, rfl, hregs, rfl, rfl, rfl, rfl⟩

/-- Settles O6: each legal word is the encoding of its well-formed command; each illegal one breaks one of R42's conditions,
which `decode` evaluates to. -/
theorem wordsOfTheSpecDecode : Obligations.WordsOfTheSpecDecode := by
  have legal {w : CommandWord} {i : Instr} (h : i.wellFormed = true ∧ encode i = w) : decode w = .ok i :=
    decode_eq_ok_iff.mpr h
  exact ⟨legal (by decide), legal (by decide), legal (by decide), legal (by decide), legal (by decide), legal (by decide),
    legal (by decide), legal (by decide), by decide, by decide, by decide, by decide⟩

end Sys2Proof.Machine
end
